-- ==== Sys2Proof/Word.lean ====
section
/-! DEFINITION. The widths of the block's interface fields (spec/00_scope.md R8, R9). -/

namespace Sys2Proof

/-- One byte of the arena, of `DATA` or of `RDATA`; also the width of a vector and of a hypercall
identifier (R8: `VEC_W = BOPID_W = 8`). -/
abbrev Byte := BitVec 8

/-- A 16-bit segment, offset, `CS`, `IP` or port number (R82). -/
abbrev Half := BitVec 16

/-- A 32-bit field: `CMD`, `A`, `L`, `STATUS` (R80), and every address and length (R8). -/
abbrev Word := BitVec 32

end Sys2Proof
end

