-- ==== Sys2Proof/Syntax.lean ====
section
/-! DEFINITION. The block's commands (spec/30_encoding.md R80 to R86): one constructor of `Instr`
per row of spec/opcode_table.json, the request that carries one, and the handler handles. -/

namespace Sys2Proof

/-- A hypercall handler as the trap table names it (R26): the built-in debugger break (R154), or a
host handler by the name the host gives it. Handles are only ever compared, so they are no bit
vector. -/
inductive Handle where
  | debugBreak
  | host (name : Nat)
  deriving DecidableEq, Repr, Inhabited

/-- The 17 rows of the opcode map (R86). -/
inductive Opcode where
  | mread | mwrite | seta20 | intack | repexc | dispbop | piord | piowr
  | init | cleanup | execat | step | reqint | sigint | term | regbop | rdstat
  deriving DecidableEq, Repr

/-- A decoded command, its operands read as R82 to R84 say. -/
inductive Instr where
  /-- MREAD: `dst` is the caller's buffer before the read (R101). -/
  | mread (address length : Word) (dst : List Byte)
  /-- MWRITE (R102). -/
  | mwrite (address length : Word) (payload : List Byte)
  /-- SETA20: `enabled` is bit 0 of `IMM8` (R103). -/
  | seta20 (enabled : Bool)
  /-- INTACK (R140). -/
  | intack
  /-- REPEXC: `n` is the exception number (R141). -/
  | repexc (n : Byte) (cs ip : Half)
  /-- DISPBOP (R151). -/
  | dispbop (id : Byte) (stackContext : Word)
  /-- PIORD: `size` is the access size in bytes (R152). -/
  | piord (port : Half) (size : Word)
  /-- PIOWR (R153). -/
  | piowr (port : Half) (size : Word) (payload : List Byte)
  /-- INIT: the two opaque device handles (R120). -/
  | init (inHandle outHandle : Word)
  /-- CLEANUP (R121). -/
  | cleanup
  /-- EXECAT (R122). -/
  | execat (segment offset : Half)
  /-- STEP (R123). -/
  | step
  /-- REQINT (R124). -/
  | reqint (vector : Byte)
  /-- SIGINT (R125). -/
  | sigint
  /-- TERM (R127). -/
  | term
  /-- REGBOP (R150). -/
  | regbop (id : Byte) (handler : Handle)
  /-- RDSTAT (R128). -/
  | rdstat
  deriving DecidableEq, Repr

/-- The request half of a transaction (R80). -/
structure Request where
  cmd  : Word
  a    : Word
  l    : Word
  data : List Byte
  h    : Handle
  deriving DecidableEq, Repr

/-- The opcode row a command belongs to. -/
def Instr.opcode : Instr → Opcode
  | .mread _ _ _ => .mread
  | .mwrite _ _ _ => .mwrite
  | .seta20 _ => .seta20
  | .intack => .intack
  | .repexc _ _ _ => .repexc
  | .dispbop _ _ => .dispbop
  | .piord _ _ => .piord
  | .piowr _ _ _ => .piowr
  | .init _ _ => .init
  | .cleanup => .cleanup
  | .execat _ _ => .execat
  | .step => .step
  | .reqint _ => .reqint
  | .sigint => .sigint
  | .term => .term
  | .regbop _ _ => .regbop
  | .rdstat => .rdstat

end Sys2Proof
end

