-- ==== Sys2Proof/WellFormed.lean ====
section
/-! DEFINITION. What a decoded command must satisfy beyond its types (spec/30_encoding.md R84, R87(f)). -/

namespace Sys2Proof

/-- `DATA` holds exactly `L` bytes for the three commands that carry it (R87(f)). Every other operand
value is legal as an encoding (R88). -/
def Instr.wellFormed : Instr → Bool
  | .mread _ length dst => dst.length == length.toNat
  | .mwrite _ length payload => payload.length == length.toNat
  | .piowr _ size payload => payload.length == size.toNat
  | .seta20 _ | .intack | .repexc _ _ _ | .dispbop _ _ | .piord _ _ | .init _ _ | .cleanup
  | .execat _ _ | .step | .reqint _ | .sigint | .term | .regbop _ _ | .rdstat => true

end Sys2Proof
end

