-- ==== Sys2Proof/Decode.lean ====
section
/-! DEFINITION. The command encoding (spec/30_encoding.md): the opcode map, the decoder, the encoder,
the serialized form, and the operand forms of the assembler syntax. -/

namespace Sys2Proof

/-! ## The opcode map (R86) -/

/-- The `OP` code of a row (R86). -/
def Opcode.code : Opcode → Byte
  | .mread => 0x01
  | .mwrite => 0x02
  | .seta20 => 0x03
  | .intack => 0x04
  | .repexc => 0x05
  | .dispbop => 0x06
  | .piord => 0x07
  | .piowr => 0x08
  | .init => 0x10
  | .cleanup => 0x11
  | .execat => 0x12
  | .step => 0x13
  | .reqint => 0x14
  | .sigint => 0x15
  | .term => 0x16
  | .regbop => 0x17
  | .rdstat => 0x18

/-- The bits of `CMD` that a row fixes (R86). -/
def Opcode.mask : Opcode → Word
  | .repexc | .dispbop | .reqint | .regbop => 0xFFFF00FF
  | .seta20 => 0xFFFFFEFF
  | .mread | .mwrite | .intack | .piord | .piowr | .init | .cleanup | .execat | .step | .sigint
  | .term | .rdstat => 0xFFFFFFFF

/-- "The match value is `zext_32(OP)` for every row" (R86). -/
def Opcode.matchWord (o : Opcode) : Word := o.code.setWidth 32

/-- "A command is selected when `CMD & mask == match`" (R86). -/
def Opcode.selects (o : Opcode) (cmd : Word) : Bool := cmd &&& o.mask == o.matchWord

/-- The rows in the order of the map. -/
def Opcode.all : List Opcode :=
  [.mread, .mwrite, .seta20, .intack, .repexc, .dispbop, .piord, .piowr, .init, .cleanup, .execat,
   .step, .reqint, .sigint, .term, .regbop, .rdstat]

/-! ## Fields (R81, R82) -/

/-- `OP = CMD[7:0]`. -/
def opField (cmd : Word) : Byte := cmd.extractLsb' 0 8

/-- `IMM8 = CMD[15:8]`. -/
def immField (cmd : Word) : Byte := cmd.extractLsb' 8 8

/-- `RSV = CMD[31:16]`. -/
def rsvField (cmd : Word) : Half := cmd.extractLsb' 16 16

/-- The upper half of a packed pair: `segment`, `CS` (R82). -/
def highHalf (a : Word) : Half := a.extractLsb' 16 16

/-- The lower half of a packed pair: `offset`, `IP`, `port` (R82). -/
def lowHalf (a : Word) : Half := a.extractLsb' 0 16

/-! ## Decoding -/

/-- Why a request is no command (R87, its clauses by letter). -/
inductive IllegalEncoding where
  /-- (a) `OP` is none of the 17 codes. -/
  | unassignedOpcode
  /-- (b) `RSV` is not zero. -/
  | reservedBits
  /-- (c) `IMM8` is not zero in a command that has no such operand. -/
  | unusedImmediate
  /-- (d) `IMM8[7:1]` is not zero in SETA20. -/
  | enableBits
  /-- (e) `A[31:16]` is not zero in PIORD or PIOWR. -/
  | portBits
  /-- (f) `DATA` does not hold `L` bytes. -/
  | dataLength
  /-- Fewer bytes than the three 32-bit fields of a serialized request take. -/
  | truncated
  deriving DecidableEq, Repr

/-- The row a command word selects. -/
def opcodeOf (cmd : Word) : Option Opcode := Opcode.all.find? (·.selects cmd)

/-- The clause of R87(a) to (d) that a command word selecting no row falls under. -/
def whyIllegal (cmd : Word) : IllegalEncoding :=
  if rsvField cmd ≠ 0 then .reservedBits
  else match Opcode.all.find? (·.code == opField cmd) with
    | none => .unassignedOpcode
    | some .seta20 => .enableBits
    | some _ => .unusedImmediate

/-- `i`, if `DATA` holds `L` bytes (R87(f)). -/
def withData (r : Request) (i : Instr) : Except IllegalEncoding Instr :=
  if r.data.length = r.l.toNat then .ok i else .error .dataLength

/-- `i`, if the upper half of `A` is zero (R87(e)). -/
def withPort (r : Request) (i : Except IllegalEncoding Instr) : Except IllegalEncoding Instr :=
  if highHalf r.a = 0 then i else .error .portBits

/-- The operands of a row (R82 to R84). -/
def assembleOperands (r : Request) : Opcode → Except IllegalEncoding Instr
  | .mread => withData r (.mread r.a r.l r.data)
  | .mwrite => withData r (.mwrite r.a r.l r.data)
  | .seta20 => .ok (.seta20 ((immField r.cmd).getLsbD 0))
  | .intack => .ok .intack
  | .repexc => .ok (.repexc (immField r.cmd) (highHalf r.a) (lowHalf r.a))
  | .dispbop => .ok (.dispbop (immField r.cmd) r.a)
  | .piord => withPort r (.ok (.piord (lowHalf r.a) r.l))
  | .piowr => withPort r (withData r (.piowr (lowHalf r.a) r.l r.data))
  | .init => .ok (.init r.a r.l)
  | .cleanup => .ok .cleanup
  | .execat => .ok (.execat (highHalf r.a) (lowHalf r.a))
  | .step => .ok .step
  | .reqint => .ok (.reqint (immField r.cmd))
  | .sigint => .ok .sigint
  | .term => .ok .term
  | .regbop => .ok (.regbop (immField r.cmd) r.h)
  | .rdstat => .ok .rdstat

/-- The command a request carries (R80, R86), or the clause of R87 it falls under. An operand the row
does not list is not looked at (R80). -/
def decode (r : Request) : Except IllegalEncoding Instr :=
  match opcodeOf r.cmd with
  | none => .error (whyIllegal r.cmd)
  | some o => assembleOperands r o

/-! ## Encoding -/

/-- `{hi, lo}`: two 16-bit fields packed into `A` (R82). -/
def packHalves (hi lo : Half) : Word := (hi.setWidth 32 <<< 16) ||| lo.setWidth 32

/-- The command word of a row with an 8-bit operand, `RSV` zero (R81). -/
def commandWord (o : Opcode) (imm : Byte) : Word := (imm.setWidth 32 <<< 8) ||| o.code.setWidth 32

/-- A request whose unlisted operands are zero or empty, as R80 wants them supplied. -/
def bareRequest (o : Opcode) (imm : Byte) (a l : Word) (data : List Byte) : Request :=
  { cmd := commandWord o imm, a := a, l := l, data := data, h := .host 0 }

/-- The request that carries a command, written from the same map. -/
def encode : Instr → Request
  | .mread address length dst => bareRequest .mread 0 address length dst
  | .mwrite address length payload => bareRequest .mwrite 0 address length payload
  | .seta20 enabled => bareRequest .seta20 (if enabled then 1 else 0) 0 0 []
  | .intack => bareRequest .intack 0 0 0 []
  | .repexc n cs ip => bareRequest .repexc n (packHalves cs ip) 0 []
  | .dispbop id ctx => bareRequest .dispbop id ctx 0 []
  | .piord port size => bareRequest .piord 0 (packHalves 0 port) size []
  | .piowr port size payload => bareRequest .piowr 0 (packHalves 0 port) size payload
  | .init inHandle outHandle => bareRequest .init 0 inHandle outHandle []
  | .cleanup => bareRequest .cleanup 0 0 0 []
  | .execat segment offset => bareRequest .execat 0 (packHalves segment offset) 0 []
  | .step => bareRequest .step 0 0 0 []
  | .reqint vector => bareRequest .reqint vector 0 0 []
  | .sigint => bareRequest .sigint 0 0 0 []
  | .term => bareRequest .term 0 0 0 []
  | .regbop id handler => { bareRequest .regbop id 0 0 [] with h := handler }
  | .rdstat => bareRequest .rdstat 0 0 0 []

/-! ## The serialized form (R85) -/

/-- `n` bytes of a number, byte 0 holding bits 7:0. -/
def leBytes : Nat → Nat → List Byte
  | 0, _ => []
  | n + 1, v => BitVec.ofNat 8 v :: leBytes n (v / 256)

/-- The number that little-endian bytes hold. -/
def ofLeBytes : List Byte → Nat
  | [] => 0
  | b :: bs => b.toNat + 256 * ofLeBytes bs

/-- `CMD`, `A` and `L`, each little-endian (R85), and then `DATA` in index order. That the fields come in
this order, at bytes 0, 4, 8 and from 12 on, and that the handle, which has no serialized form in the
spec, travels beside the bytes, is the model's choice (log entry 12). -/
def Request.toBytes (r : Request) : List Byte :=
  leBytes 4 r.cmd.toNat ++ leBytes 4 r.a.toNat ++ leBytes 4 r.l.toNat ++ r.data

/-- The request that bytes and a handle stand for; fewer than 12 bytes are no request (the model's choice,
log entry 12). -/
def Request.ofBytes (h : Handle) (bs : List Byte) : Option Request :=
  if 12 ≤ bs.length then
    some { cmd := BitVec.ofNat 32 (ofLeBytes (bs.take 4))
           a := BitVec.ofNat 32 (ofLeBytes ((bs.drop 4).take 4))
           l := BitVec.ofNat 32 (ofLeBytes ((bs.drop 8).take 4))
           data := bs.drop 12
           h := h }
  else none

/-- The command that bytes and a handle stand for: total on any bytes. -/
def decodeBytes (h : Handle) (bs : List Byte) : Except IllegalEncoding Instr :=
  match Request.ofBytes h bs with
  | none => .error .truncated
  | some r => decode r

/-- The bytes of an instruction word numbered as spec/opcode_table.json numbers it: `nbits` bits of
`w`, every further bit up to the three 32-bit fields zero. -/
def tableBytes (nbits w : Nat) : List Byte := leBytes (max 12 ((nbits + 7) / 8)) (w % 2 ^ nbits)

/-- What the decoder reads from a word of spec/opcode_table.json. The handle operand is the zero one. -/
def decodeTableWord (nbits w : Nat) : Option Instr :=
  match decodeBytes (.host 0) (tableBytes nbits w) with
  | .ok i => some i
  | .error _ => none

/-! ## Assembler forms (R92, R93) -/

/-- The mnemonics of R92, and the two pseudo-instructions of R93. -/
inductive Mnemonic where
  | command (o : Opcode)
  | a20on
  | a20off
  deriving DecidableEq, Repr

/-- One operand of R92: a number, a `seg:off` pair, a byte list, or a handle. -/
inductive AsmOperand where
  | num (n : Nat)
  | pair (segment offset : Nat)
  | bytes (bs : List Byte)
  | handle (h : Handle)
  deriving DecidableEq, Repr

/-- A number that fits `w` bits. -/
def fits (w n : Nat) : Option (BitVec w) := if n < 2 ^ w then some (BitVec.ofNat w n) else none

/-- The command a line of R92 stands for: the operands in the order of the source function's
parameters, `[dst]` of MREAD zeros where it is omitted, and R93's expansions. -/
def assemble : Mnemonic → List AsmOperand → Option Instr
  | .command .mread, [.num a, .num n] => do
    let a ← fits 32 a
    let n ← fits 32 n
    pure (.mread a n (List.replicate n.toNat 0))
  | .command .mread, [.num a, .num n, .bytes dst] => do
    let a ← fits 32 a
    let n ← fits 32 n
    pure (.mread a n dst)
  | .command .mwrite, [.num a, .num n, .bytes payload] => do
    let a ← fits 32 a
    let n ← fits 32 n
    pure (.mwrite a n payload)
  | .command .seta20, [.num 0] => some (.seta20 false)
  | .command .seta20, [.num 1] => some (.seta20 true)
  | .command .intack, [] => some .intack
  | .command .repexc, [.num n, .pair cs ip] => do
    let n ← fits 8 n
    let cs ← fits 16 cs
    let ip ← fits 16 ip
    pure (.repexc n cs ip)
  | .command .dispbop, [.num id, .num ctx] => do
    let id ← fits 8 id
    let ctx ← fits 32 ctx
    pure (.dispbop id ctx)
  | .command .piord, [.num port, .num size] => do
    let port ← fits 16 port
    let size ← fits 32 size
    pure (.piord port size)
  | .command .piowr, [.num port, .num size, .bytes payload] => do
    let port ← fits 16 port
    let size ← fits 32 size
    pure (.piowr port size payload)
  | .command .init, [.num inHandle, .num outHandle] => do
    let inHandle ← fits 32 inHandle
    let outHandle ← fits 32 outHandle
    pure (.init inHandle outHandle)
  | .command .cleanup, [] => some .cleanup
  | .command .execat, [.pair segment offset] => do
    let segment ← fits 16 segment
    let offset ← fits 16 offset
    pure (.execat segment offset)
  | .command .step, [] => some .step
  | .command .reqint, [.num vector] => (fits 8 vector).map .reqint
  | .command .sigint, [] => some .sigint
  | .command .term, [] => some .term
  | .command .regbop, [.num id, .handle h] => (fits 8 id).map (.regbop · h)
  | .command .rdstat, [] => some .rdstat
  | .a20on, [] => some (.seta20 true)
  | .a20off, [] => some (.seta20 false)
  | _, _ => none

/-- The line of R92 that writes a command out in full. -/
def Instr.assembly : Instr → Mnemonic × List AsmOperand
  | .mread a n dst => (.command .mread, [.num a.toNat, .num n.toNat, .bytes dst])
  | .mwrite a n payload => (.command .mwrite, [.num a.toNat, .num n.toNat, .bytes payload])
  | .seta20 enabled => (.command .seta20, [.num enabled.toNat])
  | .intack => (.command .intack, [])
  | .repexc n cs ip => (.command .repexc, [.num n.toNat, .pair cs.toNat ip.toNat])
  | .dispbop id ctx => (.command .dispbop, [.num id.toNat, .num ctx.toNat])
  | .piord port size => (.command .piord, [.num port.toNat, .num size.toNat])
  | .piowr port size payload => (.command .piowr, [.num port.toNat, .num size.toNat, .bytes payload])
  | .init inHandle outHandle => (.command .init, [.num inHandle.toNat, .num outHandle.toNat])
  | .cleanup => (.command .cleanup, [])
  | .execat segment offset => (.command .execat, [.pair segment.toNat offset.toNat])
  | .step => (.command .step, [])
  | .reqint vector => (.command .reqint, [.num vector.toNat])
  | .sigint => (.command .sigint, [])
  | .term => (.command .term, [])
  | .regbop id h => (.command .regbop, [.num id.toNat, .handle h])
  | .rdstat => (.command .rdstat, [])

end Sys2Proof
end

