-- ==== Sys2Proof/Config.lean ====
section
/-! DEFINITION. What is fixed for one machine (spec/00_scope.md R8), and the values the spec leaves
free (spec/93_implementation_defined.md Part 1). -/

namespace Sys2Proof

/-- The identifier of the debugger-break hypercall, which the spec leaves OPEN (R8, D20): a constant
of which nothing is known (log entry 3). -/
opaque Config.debugBopId : Byte

/-- The finite set of host handles REGBOP may name, which the spec leaves OPEN (R8, D37): a constant
of which nothing is known (log entry 3). -/
opaque Config.handlers : List Handle

/-- The 32-bit value an external agent answers where no answer is written out in the state (R7, U4 to
U9, U16): the argument counts such answers (log entry 2). -/
opaque Config.freeWord : Nat → Word

/-- Whether an external agent issues a command from inside a call the block makes to it, where no
answer is written out in the state (R91, log entries 2 and 8). -/
opaque Config.freeCallback : Nat → Bool

/-- The implementation parameters of R8. A model takes them as arguments: they stand in the state, no
step writes them, and every statement about all states holds for every value of them (log entry 1). -/
structure Params where
  /-- `MAX_ADDRESS`: the size of the arena in bytes. -/
  maxAddress : Nat
  /-- `ROM_BASE`: the first byte of the read-only region. -/
  romBase    : Nat
  /-- `ROM_LIMIT`: the first byte after the read-only region. -/
  romLimit   : Nat
  /-- `A20_RESET`: the A20 Gate's value until SETA20 writes it (D10). -/
  a20Reset   : Bool
  /-- `DEBUG_BOP_ID` (D20). -/
  debugBopId : Byte
  /-- `HANDLERS` (D37). -/
  handlers   : List Handle
  deriving DecidableEq, Repr

/-- The constraint R8 puts on `MAX_ADDRESS`. -/
abbrev Params.wf (p : Params) : Prop := 0 < p.maxAddress ∧ p.maxAddress ≤ 2 ^ 32

/-- The defaults of R8, and the two OPEN parameters as constants without a value. -/
def Params.default : Params where
  maxAddress := 0x100000
  romBase := 0xF0000
  romLimit := 0x100000
  a20Reset := false
  debugBopId := Config.debugBopId
  handlers := Config.handlers

/-- `DIAG_BYTES`: how many bytes of opcode context a report holds at most (R8). -/
def Config.diagBytes : Nat := 10

/-- `NUM_EXC`: the number of fault classes (R8). -/
def Config.numExc : Nat := 8

end Sys2Proof
end

