-- ==== Sys2Proof/Machine/State.lean ====
section
/-! DEFINITION. The state of the block (spec/10_state.md), what stands around it (R7, R32), and the
reasons a step can stop. Plain data throughout. -/

namespace Sys2Proof.Machine

/-! ## Block state -/

/-- The lifecycle (R24). -/
inductive Life where
  | uninit
  | ready
  | released
  deriving DecidableEq, Repr

/-- The closed set of contract-fault reasons (R163). These are recorded in the state and never stop a
run of the model. -/
inductive ContractFault where
  /-- ILLEGAL_CMD: an encoding of R87. -/
  | illegalCmd
  /-- NOT_READY: a command other than INIT, CLEANUP and RDSTAT while `life` is not READY. -/
  | notReady
  /-- LIFECYCLE: INIT when not UNINIT, CLEANUP when RELEASED. -/
  | lifecycle
  /-- NESTED: INIT, CLEANUP or STEP while a command is in progress. -/
  | nested
  /-- REENTRANT: a command issued from inside a video-device entry, the PIC query or the message
  surface. -/
  | reentrant
  /-- BAD_EXC_NUM: REPEXC with a number outside `0..7`. -/
  | badExcNum
  /-- UNREGISTERED_BOP: DISPBOP of an identifier with no entry. -/
  | unregisteredBop
  /-- BAD_HANDLE: REGBOP of a handle outside `HANDLERS`. -/
  | badHandle
  deriving DecidableEq, Repr

/-- The guest address space (R25): the bytes that are not zero, by address, addresses strictly rising.
An address not listed reads as zero, which is what the spec says the arena is created with. -/
abbrev Memory := List Host.Cell

/-- The trap table (R26): the registered identifiers, strictly rising, each with its handler. -/
abbrev TrapTable := List (Nat × Handle)

/-- The eight kinds of guest exception (R143). -/
inductive ExcKind where
  | divideByZero
  | debug
  | unexpectedOrDoubleFault
  | breakpoint
  | overflow
  | boundRange
  | invalidOpcode
  | deviceUnavailable
  deriving DecidableEq, Repr

/-- The exception report (R144): exactly four things. -/
structure Report where
  kind  : ExcKind
  cs    : Half
  ip    : Half
  bytes : List Byte
  deriving DecidableEq, Repr

/-- The device models INIT and CLEANUP call (R120, R174). -/
inductive Device where
  | pic
  | timer
  | rtc
  | sound
  | input
  deriving DecidableEq, Repr

/-- Which command serves each slot of the engine's callback contract (R120); `none` is an unused
slot. -/
structure CallbackSlots where
  read      : Option Opcode
  write     : Option Opcode
  portRead  : Option Opcode
  portWrite : Option Opcode
  xlate     : Option Opcode
  hypercall : Option Opcode
  intAck    : Option Opcode
  deriving DecidableEq, Repr

/-- One interaction of the block with an external agent (R29). An agent that answers on the spot has
its answer recorded with the call. -/
inductive Event where
  | engineConstruct (slots : CallbackSlots)
  | deviceInit (d : Device)
  /-- The input device's initialization, with the two handles of INIT (R120). -/
  | inputInit (inHandle outHandle : Word)
  | engineInterruptEnable (enabled : Bool)
  | deviceCleanup (d : Device)
  | engineExecuteAt (segment offset : Half)
  | engineStep
  | engineRequestInterrupt (vector : Byte)
  | engineSignalInterrupt
  | videoBase (answer : Word)
  | videoLimit (answer : Word)
  | deviceRead (address length : Nat) (bytes : List Byte)
  | deviceWrite (address : Nat) (bytes : List Byte) (length : Nat)
  | picPendingVector (answer : Byte)
  | report (r : Report)
  | handlerCall (h : Handle) (stackContext : Word)
  | debugBreak (stackContext : Word)
  | portRead (port : Half) (size : Word)
  | portWrite (port : Half) (size : Word) (payload : List Byte)
  deriving DecidableEq, Repr

/-- The response half of a transaction (R80): a field a command does not list is absent. -/
structure Response where
  rdata  : Option (List Byte) := none
  vec    : Option Byte := none
  status : Option Word := none
  ok     : Option Bool := none
  deriving DecidableEq, Repr

/-- A call that INIT or CLEANUP makes (R120, R121). -/
inductive Call where
  | engineConstruct
  | deviceInit (d : Device)
  /-- The input device's initialization, with the two handles of INIT. -/
  | inputInit (inHandle outHandle : Word)
  | enableInterrupts
  | deviceCleanup (d : Device)
  deriving DecidableEq, Repr

/-- A command in progress (R91): one whose external agent runs, and may issue commands, until it
returns. -/
inductive Activity where
  /-- INIT at one of its calls, with the calls it has still to make. -/
  | init (left : List Call)
  /-- CLEANUP at one of its calls, with the calls it has still to make. -/
  | cleanup (left : List Call)
  | sigint
  | step
  | execat
  | reqint
  | handler (h : Handle)
  | portRead (size : Word)
  | portWrite
  deriving DecidableEq, Repr

/-! ## The block's surroundings -/

/-- What the block writes in the engine (R32). It is the engine's, not the block's; no command's effect
depends on it but EXECAT's validity (R122), which asks for the addressing mode. -/
structure Engine where
  cs              : Half
  ip              : Half
  /-- The guest interrupt-enable state (R126). -/
  interruptEnable : Bool
  /-- The external-interrupt pending flag (R125). -/
  pending         : Bool
  /-- Whether the engine is in 16-bit real-mode addressing (R122, U1). -/
  realMode        : Bool
  deriving DecidableEq, Repr

/-- What an external agent does when the block calls it: the value it answers, and whether it issues
commands to the block before it answers (R91). -/
structure Answer where
  value     : Word
  callsBack : Bool := false
  deriving DecidableEq, Repr

/-- What the surroundings do next (R7). -/
inductive Input where
  /-- Some agent issues a command (R90: the block does not check which). -/
  | command (r : Request)
  /-- The agent of the innermost command in progress returns. -/
  | agentReturns
  /-- The engine, while it runs, brings its own state to this. -/
  | engineMoves (e : Engine)
  /-- The host loads bytes into the arena directly (R193). -/
  | hostLoad (image : List Host.Cell)
  deriving DecidableEq, Repr

/-! ## The state -/

@[ext]
structure State where
  /-- The machine's parameters (R8); no step writes them. -/
  params     : Params
  /-- R24. -/
  life       : Life
  /-- The A20 Gate (R22): `true` is set, no masking. -/
  a20        : Bool
  /-- The Run State (R23). -/
  running    : Bool
  /-- The Guest Address Space (R25), with nothing listed while there is none. -/
  arena      : Memory
  /-- The Trap Table (R26). -/
  traps      : TrapTable
  /-- The contract-fault record (R28). -/
  cfault     : Option ContractFault
  /-- The event history, oldest first (R29). -/
  history    : List Event
  /-- The response of the last command served (R80). -/
  response   : Response
  /-- The commands in progress, innermost first (R91). -/
  inProgress : List Activity
  /-- Whether a STEP has been served, which closes the image load (R193). -/
  stepIssued : Bool
  /-- The external engine, as far as the block writes it (R32); none before INIT constructs it. -/
  engine     : Option Engine
  /-- What the surroundings do next, first to come first. -/
  inputs     : List Input
  /-- What external agents will answer, in the order they are asked. -/
  answers    : List Answer
  /-- How many answers beyond the written ones have been drawn from Config's free values. -/
  drawn      : Nat
  deriving DecidableEq, Repr

/-- The state at creation, before INIT (R35, R190). -/
def State.reset : State where
  params := Params.default
  life := .uninit
  a20 := Params.default.a20Reset
  running := true
  arena := []
  traps := []
  cfault := none
  history := []
  response := {}
  inProgress := []
  stepIssued := false
  engine := none
  inputs := []
  answers := []
  drawn := 0

/-! ## Why a step can stop -/

/-- The machine stops with a fault. -/
inductive Fault where
  /-- Raised by the arena's own access operations when an access would touch a byte outside
  `[0, MAX_ADDRESS)`, which R25 forbids. Safe: no step raises it (an obligation says so). -/
  | outsideArena
  deriving DecidableEq, Repr

/-- The model gives no meaning. -/
inductive Refusal where
  /-- An instruction with no meaning in the model; no arm uses it. Safe. -/
  | notModelled (mnemonic : String)
  /-- Raised by EXECAT while the engine is not in 16-bit real-mode addressing: "undefined by this layer"
  (R122, U1 `refuse`). Safe. -/
  | execatOutsideRealMode
  deriving DecidableEq, Repr

/-- The outcome of a command or of a step. -/
abbrev Result := Host.Outcome State Fault Refusal

end Sys2Proof.Machine
end

