-- ==== Sys2Proof/Machine/Memory.lean ====
section
/-! DEFINITION. Tables kept as lists with strictly rising keys, and the guest address space as one
(spec/10_state.md R25, R26; spec/20_memory.md R58). -/

namespace Sys2Proof.Machine

/-- The entry of a key. -/
def tableLookup {α : Type} (k : Nat) : List (Nat × α) → Option α
  | [] => none
  | (k', v) :: t => if k = k' then some v else tableLookup k t

/-- The table with `k` mapped to `v`. -/
def tableInsert {α : Type} (k : Nat) (v : α) : List (Nat × α) → List (Nat × α)
  | [] => [(k, v)]
  | (k', v') :: t =>
    if k < k' then (k, v) :: (k', v') :: t
    else if k = k' then (k, v) :: t
    else (k', v') :: tableInsert k v t

/-- The table without an entry for `k`. -/
def tableErase {α : Type} (k : Nat) (t : List (Nat × α)) : List (Nat × α) :=
  t.filter (fun c => c.1 ≠ k)

/-- Every key lies below the keys after it. -/
abbrev tableSorted {α : Type} (t : List (Nat × α)) : Prop :=
  (t.map (·.1)).Pairwise (· < ·)

/-- What an address that is not listed reads as: "zero-initialized at creation" (R25). -/
def Memory.unlisted : Byte := 0

/-- The canonical form: addresses strictly rising, and no entry equal to what an unlisted address
reads as. -/
abbrev Memory.wf (m : Memory) : Prop := tableSorted m ∧ ∀ c ∈ m, c.2 ≠ Memory.unlisted

/-- The byte at an address. -/
def Memory.read (m : Memory) (a : Nat) : Byte := (tableLookup a m).getD Memory.unlisted

/-- `arena[a] <- v` (R10). -/
def Memory.write (m : Memory) (a : Nat) (v : Byte) : Memory :=
  if v = Memory.unlisted then tableErase a m else tableInsert a v m

/-- `arena[a], ..., arena[a+n-1]` (R10 `ArenaCopyOut`). -/
def Memory.readBytes (m : Memory) (a n : Nat) : List Byte :=
  (List.range n).map fun k => m.read (a + k)

/-- `arena[a+k] <- v[k]` (R10 `ArenaCopyIn`). -/
def Memory.writeBytes (m : Memory) (a : Nat) : List Byte → Memory
  | [] => m
  | v :: vs => (m.write a v).writeBytes (a + 1) vs

end Sys2Proof.Machine
end

