-- ==== Sys2Proof/Machine/Flags.lean ====
section
/-! DEFINITION. The block's flags and the status view (spec/10_state.md R30, R31). The block has no
condition codes. -/

namespace Sys2Proof.Machine

/-- The two LIFE bits (R31); the value 3 never occurs. -/
def Life.code : Life → BitVec 2
  | .uninit => 0
  | .ready => 1
  | .released => 2

/-- The STATUS word (R31, R128): A20, RUN, LIFE, CF, and 27 reserved bits that are always zero. -/
def State.statusWord (s : State) : Word :=
  ((BitVec.ofBool s.cfault.isSome).setWidth 32 <<< 4) ||| (s.life.code.setWidth 32 <<< 2) |||
    ((BitVec.ofBool s.running).setWidth 32 <<< 1) ||| (BitVec.ofBool s.a20).setWidth 32

/-- `halt` (R10, R23). -/
def State.halt (s : State) : State := { s with running := false }

/-- The write of the A20 Gate (R103): the gate takes the level it is given (C7). -/
def State.setA20 (s : State) (enabled : Bool) : State := { s with a20 := enabled }

end Sys2Proof.Machine
end

