-- ==== Sys2Proof/Machine/Operands.lean ====
section
/-! DEFINITION. Address arithmetic: A20 masking, ranges and their intersections, the linear address of
a segment:offset pair (spec/00_scope.md R9, R10; spec/40_arbiter.md R107, R108; spec/42_bridge.md R142). -/

namespace Sys2Proof.Machine

/-- Step 1 of the access pipeline (R100, R107): while the gate is clear, bit 20 is cleared and every
other bit kept. -/
def maskA20 (a20 : Bool) (address : Word) : Word :=
  if a20 then address else address &&& ~~~((1 : Word) <<< 20)

/-- A closed-open range of addresses (R9). -/
structure Range where
  lo : Nat
  hi : Nat
  deriving DecidableEq, Repr

/-- "It is empty when `l <= b`" (R9). -/
abbrev Range.nonempty (r : Range) : Prop := r.lo < r.hi

/-- Whether the range holds an address. -/
abbrev Range.holds (r : Range) (x : Nat) : Prop := r.lo ≤ x ∧ x < r.hi

/-- How many addresses the range holds. -/
def Range.size (r : Range) : Nat := r.hi - r.lo

/-- `isect` (R10). -/
def Range.isect (r q : Range) : Range := { lo := max r.lo q.lo, hi := min r.hi q.hi }

/-- The range of a request, its sum exact (R108). -/
def requestRange (a length : Nat) : Range := { lo := a, hi := a + length }

/-- The read-only region (R27). -/
def romRange (p : Params) : Range := { lo := p.romBase, hi := p.romLimit }

/-- The real-mode linear address of the diagnostic fetch (R142): 21 bits, at most `0x10FFEF`. -/
def linearAddress (cs ip : Half) : Nat := cs.toNat * 16 + ip.toNat

/-- Which way an access goes (R100). -/
inductive AccessKind where
  | read
  | write
  deriving DecidableEq, Repr

end Sys2Proof.Machine
end

