-- ==== Sys2Proof/Machine/Ops.lean ====
section
/-! DEFINITION. The operations the meanings share: recording events, asking external agents, contract
faults, the gates every command passes, the arena's checked accesses, the access pipeline (R100), the
trap table, reporting an exception (R141), and what the surroundings do between commands. -/

namespace Sys2Proof.Machine

/-! ## Events and responses -/

/-- `call Agent.entry(...)`: the interaction is appended to the history (R10, R29). -/
def State.record (s : State) (e : Event) : State := { s with history := s.history ++ [e] }

/-- The interactions of a list, in its order. -/
def State.recordAll (s : State) (es : List Event) : State := { s with history := s.history ++ es }

/-- The command completes with a response (R80). -/
def State.respond (s : State) (r : Response) : State := { s with response := r }

/-! ## External agents' answers (R7) -/

/-- What the `k`-th external answer from here on is: the written one, or a free value where none is
written (log entry 2). -/
def State.answerAt (s : State) (k : Nat) : Answer :=
  match s.answers[k]? with
  | some a => a
  | none =>
    let i := s.drawn + (k - s.answers.length)
    { value := Config.freeWord i, callsBack := Config.freeCallback i }

/-- The state after `n` answers have been given. -/
def State.consume (s : State) (n : Nat) : State :=
  { s with answers := s.answers.drop n, drawn := s.drawn + (n - s.answers.length) }

/-- An answer as one bit. -/
def Answer.bit (a : Answer) : Bool := a.value.getLsbD 0

/-- An answer as one byte. -/
def Answer.byte (a : Answer) : Byte := a.value.setWidth 8

/-- The next `n` answers as bytes. -/
def State.answerBytes (s : State) (n : Nat) : List Byte :=
  (List.range n).map fun k => (s.answerAt k).byte

/-- Whether one of the next `n` answers comes from an agent that issues a command first. -/
def State.calledBack (s : State) (n : Nat) : Bool :=
  (List.range n).any fun k => (s.answerAt k).callsBack

/-! ## Contract faults (R163) -/

/-- "If `cfault = none`, it sets `cfault <- r`." -/
def State.noteFault (s : State) (r : ContractFault) : State :=
  { s with cfault := s.cfault.or (some r) }

/-- `raise ContractFault(r)`: the command has no other effect and answers nothing. -/
def State.raise (s : State) (r : ContractFault) : State := (s.noteFault r).respond {}

/-- A call of a video-device entry, of the PIC query or of the message surface, which takes `n`
answers: a command issued from inside it raises REENTRANT (R91) and has no other effect. That this is the
reason recorded whatever is issued there, a request with an illegal encoding (R87) and an INIT, CLEANUP or STEP
(NESTED) among them, is the model's choice (log entry 8). -/
def State.callReentrantFree (s : State) (n : Nat) : State :=
  if s.calledBack n then (s.consume n).noteFault .reentrant else s.consume n

/-! ## The gates of a command -/

/-- Once a contract fault is recorded, no command but RDSTAT is served (R28, R163). -/
def State.whenServed (s : State) (body : State → Result) : Result :=
  if s.cfault.isSome then .next (s.respond {}) else body s

/-- The `require` lines of a command's pseudocode, in their order, each with whether it holds and the reason it
raises. Every one that fails raises its reason, so that the first is the one recorded (R163, "If `cfault =
none`"); the command goes on only if none fails. -/
def State.whenMet (s : State) (checks : List (Bool × ContractFault)) (body : State → Result) :
    Result :=
  s.whenServed fun s =>
    match checks.filter fun c => !c.1 with
    | [] => body s
    | failed => .next (failed.foldl (fun u c => u.raise c.2) s)

/-- `require life = READY else raise ContractFault(NOT_READY)`. -/
def State.whenReady (s : State) (body : State → Result) : Result :=
  s.whenMet [(decide (s.life = .ready), .notReady)] body

/-- The command calls an external agent that may issue commands before it returns (R91): it is in
progress until then. -/
def State.begin (s : State) (act : Activity) : State :=
  { s with inProgress := act :: s.inProgress, response := {} }

/-! ## The arena's accesses -/

/-- An access of `n` bytes at `a` touches no byte outside `[0, MAX_ADDRESS)` (R25). -/
abbrev State.inArena (s : State) (a n : Nat) : Prop := n = 0 ∨ a + n ≤ s.params.maxAddress

/-- `ArenaCopyOut` (R10). -/
def State.copyOut (s : State) (a n : Nat) : Except Fault (List Byte) :=
  if s.inArena a n then .ok (s.arena.readBytes a n) else .error .outsideArena

/-- The state with other arena bytes. -/
def State.setArena (s : State) (m : Memory) : State := { s with arena := m }

/-- `ArenaCopyIn` (R10). -/
def State.copyIn (s : State) (a : Nat) (bytes : List Byte) : Except Fault State :=
  if s.inArena a bytes.length then .ok (s.setArena (s.arena.writeBytes a bytes))
  else .error .outsideArena

/-- Continues with an access's answer, or stops with its fault. -/
def orFault {α : Type} (x : Except Fault α) (k : α → Result) : Result :=
  match x with
  | .ok a => k a
  | .error f => .fault f

/-! ## The access pipeline (R100) -/

/-- Step 1: the masked address of a request. -/
def State.maskedAddress (s : State) (address : Word) : Nat := (maskA20 s.a20 address).toNat

/-- Steps 2 and 3: the request is dropped (R106), since it reaches `MAX_ADDRESS` or since it is a write
whose range meets the read-only region. -/
abbrev State.dropped (s : State) (kind : AccessKind) (address length : Word) : Prop :=
  s.maskedAddress address + length.toNat ≥ s.params.maxAddress ∨
  (kind = .write ∧
    ((requestRange (s.maskedAddress address) length.toNat).isect (romRange s.params)).nonempty)

/-- Step 4: the video region as the next two answers give it. -/
def State.videoRange (s : State) : Range :=
  { lo := (s.answerAt 0).value.toNat, hi := (s.answerAt 1).value.toNat }

/-- Step 4: the two queries of the video region's bounds, in their order (R104, R105). -/
def State.queryVideo (s : State) : State :=
  (s.recordAll [.videoBase (s.answerAt 0).value, .videoLimit (s.answerAt 1).value]).callReentrantFree 2

/-- Step 4 of a read: the device fills its portion of the arena. -/
def State.deviceFill (s : State) (i : Range) : Except Fault State :=
  if i.nonempty then
    let bytes := s.answerBytes i.size
    ((s.record (.deviceRead i.lo i.size bytes)).callReentrantFree i.size).copyIn i.lo bytes
  else .ok s

/-- The payload bytes of a request at `a` that lie in a part of its range. -/
def payloadPart (a : Nat) (payload : List Byte) (i : Range) : List Byte :=
  (payload.drop (i.lo - a)).take i.size

/-- Step 4 of a write, after the arena copy: the device is told the intersection's final bytes. -/
def State.deviceForward (s : State) (a : Nat) (payload : List Byte) (i : Range) : State :=
  if i.nonempty then
    (s.record (.deviceWrite i.lo (payloadPart a payload i) i.size)).callReentrantFree 1
  else s

/-- Steps 4 and 5 of a read at a masked, in-range address. -/
def State.readThrough (s : State) (a : Nat) (length : Nat) : Result :=
  let i := (requestRange a length).isect s.videoRange
  orFault (s.queryVideo.deviceFill i) fun s' =>
    orFault (s'.copyOut a length) fun bytes => .next (s'.respond { rdata := some bytes })

/-- Steps 5 and 4 of a write at a masked, in-range address, in that order (R105). -/
def State.writeThrough (s : State) (a : Nat) (length : Nat) (payload : List Byte) : Result :=
  let i := (requestRange a length).isect s.videoRange
  orFault (s.queryVideo.copyIn a payload) fun s' =>
    .next ((s'.deviceForward a payload i).respond {})

/-! ## The trap table (R26) -/

/-- `traps[id]`. -/
def State.trap (s : State) (id : Byte) : Option Handle := tableLookup id.toNat s.traps

/-- `traps[id] <- H`. -/
def State.setTrap (s : State) (id : Byte) (h : Handle) : State :=
  { s with traps := tableInsert id.toNat h s.traps }

/-! ## Exceptions (R141 to R145) -/

/-- The kind a legal exception number selects (R143). -/
def excKind (n : Byte) : Option ExcKind :=
  [ExcKind.divideByZero, .debug, .unexpectedOrDoubleFault, .breakpoint, .overflow, .boundRange,
   .invalidOpcode, .deviceUnavailable][n.toNat]?

/-- The masked linear address of the diagnostic fetch (R142). -/
def State.diagAddress (s : State) (cs ip : Half) : Nat :=
  (maskA20 s.a20 (BitVec.ofNat 32 (linearAddress cs ip))).toNat

/-- How many of the diagnostic bytes lie in the arena: ten, clipped at `MAX_ADDRESS` (R142). -/
def State.diagLength (s : State) (cs ip : Half) : Nat :=
  min Config.diagBytes (s.params.maxAddress - s.diagAddress cs ip)

/-- `DiagFetch` (R142): the arena's bytes as they stand, with no device call. -/
def State.diagFetch (s : State) (cs ip : Half) : Except Fault (List Byte) :=
  s.copyOut (s.diagAddress cs ip) (s.diagLength cs ip)

/-- Taking a guest exception: it is reported, and the machine halts (R141, R168). Nothing is saved but
the report, and there is no return from it (R170). -/
def State.reportException (s : State) (kind : ExcKind) (cs ip : Half) : Result :=
  orFault (s.diagFetch cs ip) fun bytes =>
    .next ((((s.record (.report { kind, cs, ip, bytes })).callReentrantFree 1).halt).respond {})

/-! ## The engine (R32) -/

/-- What a command writes in the engine. -/
def State.updateEngine (s : State) (f : Engine → Engine) : State :=
  { s with engine := s.engine.map f }

/-- Whether the engine is in an addressing mode in which EXECAT has no meaning (R122, U1). -/
def State.outsideRealMode (s : State) : Bool := s.engine.any fun e => !e.realMode

/-- The commands inside which the engine runs (R7). -/
def Activity.isEngine : Activity → Bool
  | .step | .execat | .reqint => true
  | .init _ | .cleanup _ | .sigint | .handler _ | .portRead _ | .portWrite => false

/-! ## Starting and stopping the machine (R120, R121) -/

/-- The engine's callback contract as INIT fills it (R120). -/
def callbackSlots : CallbackSlots where
  read := some .mread
  write := some .mwrite
  portRead := some .piord
  portWrite := some .piowr
  xlate := none
  hypercall := some .dispbop
  intAck := some .intack

/-- The engine right after its construction: its CS:IP, its pending flag and its interrupt-enable state
are answers of its own (U8, U9), and it runs in real mode (R172). -/
def State.constructedEngine (s : State) : Engine where
  cs := (s.answerAt 0).value.extractLsb' 16 16
  ip := (s.answerAt 0).value.extractLsb' 0 16
  interruptEnable := (s.answerAt 1).value.getLsbD 1
  pending := (s.answerAt 1).bit
  realMode := true

/-- The interaction a call is recorded as. -/
def Call.event : Call → Event
  | .engineConstruct => .engineConstruct callbackSlots
  | .deviceInit d => .deviceInit d
  | .inputInit inHandle outHandle => .inputInit inHandle outHandle
  | .enableInterrupts => .engineInterruptEnable true
  | .deviceCleanup d => .deviceCleanup d

/-- How many answers a call takes. -/
def Call.answers : Call → Nat
  | .engineConstruct => 2
  | .deviceInit _ | .inputInit _ _ | .enableInterrupts | .deviceCleanup _ => 1

/-- What comes about with a call besides its event: the engine, and with the last call of INIT the trap
table registered before it and the interrupts it enables. -/
def State.callEffect (s : State) : Call → State
  | .engineConstruct => { s with engine := some s.constructedEngine }
  | .enableInterrupts =>
    { s.updateEngine fun e => { e with interruptEnable := true } with
      traps := [(s.params.debugBopId.toNat, .debugBreak)] }
  | .deviceInit _ | .inputInit _ _ | .deviceCleanup _ => s

/-- One call. -/
def State.makeCall (s : State) (c : Call) : State :=
  ((s.callEffect c).record c.event).consume c.answers

/-- Calls in their order. An agent that issues commands before it returns leaves the command in progress
at its call, `frame` holding the calls still to make; `finish` is what the command does after the
last. -/
def State.runCalls (frame : List Call → Activity) (finish : State → State) :
    List Call → State → State
  | [], s => finish s
  | c :: cs, s =>
    if s.calledBack c.answers then (s.makeCall c).begin (frame cs)
    else runCalls frame finish cs (s.makeCall c)

/-- The calls of a successful INIT, in the source's order (D39). -/
def initCalls (inHandle outHandle : Word) : List Call :=
  [.engineConstruct, .deviceInit .pic, .deviceInit .timer, .deviceInit .rtc, .deviceInit .sound,
   .inputInit inHandle outHandle, .enableInterrupts]

/-- The calls of CLEANUP, in the reverse order (D39). -/
def cleanupCalls : List Call :=
  [.deviceCleanup .input, .deviceCleanup .sound, .deviceCleanup .rtc, .deviceCleanup .timer,
   .deviceCleanup .pic]

/-- The end of a successful INIT. Its `cfault <- none` changes nothing where INIT is served, and does not
clear a fault that a command nested in it raised (R28, log entry 17). -/
def State.finishInit (s : State) : State :=
  { s with running := true, life := .ready, response := { ok := some true } }

/-- The end of a CLEANUP of a READY machine: the arena is released. -/
def State.finishCleanup (s : State) : State :=
  { s with arena := [], life := .released, response := {} }

/-- INIT from one of its calls on. -/
def State.runInit (s : State) (calls : List Call) : State := runCalls .init finishInit calls s

/-- CLEANUP from one of its calls on. -/
def State.runCleanup (s : State) (calls : List Call) : State :=
  runCalls .cleanup finishCleanup calls s

/-- The effect of an INIT whose allocation succeeded: a zero arena, and the calls. -/
def State.startMachine (s : State) (inHandle outHandle : Word) : State :=
  ((s.consume 1).setArena []).runInit (initCalls inHandle outHandle)

/-- The effect of CLEANUP on a READY machine. -/
def State.stopMachine (s : State) : State := s.runCleanup cleanupCalls

/-! ## What the surroundings do besides issuing commands -/

/-- The agent of a command in progress returns: INIT and CLEANUP go on with their calls, PIORD answers the
router's bytes (R152), and the others complete. -/
def State.resume (s : State) : Activity → State
  | .init left => s.runInit left
  | .cleanup left => s.runCleanup left
  | .portRead size => (s.consume size.toNat).respond { rdata := some (s.answerBytes size.toNat) }
  | .sigint | .step | .execat | .reqint | .handler _ | .portWrite => s.respond {}

/-- The agent of the innermost command in progress returns. With none in progress, nothing returns. -/
def State.agentReturns (s : State) : State :=
  match s.inProgress with
  | [] => s
  | act :: rest => State.resume { s with inProgress := rest } act

/-- The engine brings its own state to `e`, which it does only while it runs (R66). -/
def State.engineMoves (s : State) (e : Engine) : State :=
  if s.inProgress.any Activity.isEngine then { s with engine := some e } else s

/-- The bytes of an image that lie in the arena. -/
def State.writeImage (s : State) (image : List Host.Cell) : Memory :=
  image.foldl (fun m c => if c.1 < s.params.maxAddress then m.write c.1 c.2 else m) s.arena

/-- The host's image load (R193): between a successful INIT and the first STEP, and not after it. That it
takes effect there also while a command is in progress is the model's choice (log entry 9). -/
def State.hostLoad (s : State) (image : List Host.Cell) : State :=
  if s.life = .ready ∧ s.stepIssued = false then s.setArena (s.writeImage image) else s

/-- A request that is no command (R87): ILLEGAL_CMD and no other effect. -/
def State.illegalCommand (s : State) : State := s.raise .illegalCmd

end Sys2Proof.Machine
end

