-- ==== Sys2Proof/Machine/Arbiter.lean ====
section
/-! DEFINITION. The Memory Arbiter's commands (spec/40_arbiter.md R100 to R114). -/

namespace Sys2Proof.Machine

/-- MREAD (R101): a dropped read answers the caller's buffer unchanged (R106). -/
def execMread (address length : Word) (dst : List Byte) (s : State) : Result :=
  s.whenReady fun s =>
    if s.dropped .read address length then .next (s.respond { rdata := some dst })
    else s.readThrough (s.maskedAddress address) length.toNat

/-- MWRITE (R102): a dropped write has no effect (R106). -/
def execMwrite (address length : Word) (payload : List Byte) (s : State) : Result :=
  s.whenReady fun s =>
    if s.dropped .write address length then .next (s.respond {})
    else s.writeThrough (s.maskedAddress address) length.toNat payload

/-- SETA20 (R103). -/
def execSeta20 (enabled : Bool) (s : State) : Result :=
  s.whenReady fun s => .next ((s.setA20 enabled).respond {})

end Sys2Proof.Machine
end

