-- ==== Sys2Proof/Machine/Bridge.lean ====
section
/-! DEFINITION. The Interrupt/Exception Bridge's commands (spec/42_bridge.md R140 to R145). -/

namespace Sys2Proof.Machine

/-- INTACK (R140): one query of the PIC, whose answer is the vector. -/
def execIntack (s : State) : Result :=
  s.whenReady fun s =>
    let v := (s.answerAt 0).byte
    .next (((s.record (.picPendingVector v)).callReentrantFree 1).respond { vec := some v })

/-- REPEXC (R141): a number outside `0..7` is a contract fault, with no report and no halt. -/
def execRepexc (n : Byte) (cs ip : Half) (s : State) : Result :=
  s.whenReady fun s =>
    match excKind n with
    | none => .next (s.raise .badExcNum)
    | some kind => s.reportException kind cs ip

end Sys2Proof.Machine
end

