-- ==== Sys2Proof/Machine/Controller.lean ====
section
/-! DEFINITION. The Execution Controller's commands (spec/41_controller.md R120 to R129). -/

namespace Sys2Proof.Machine

/-- INIT (R120): whether the allocation succeeds is the first answer (U7); a failed INIT changes no
block state (R164). Both checks raise where both fail, and the first one's reason stands (log entry 10). -/
def execInit (inHandle outHandle : Word) (s : State) : Result :=
  s.whenMet [(decide (s.life = .uninit), .lifecycle), (decide (s.inProgress = []), .nested)] fun s =>
    .next (if (s.answerAt 0).bit then s.startMachine inHandle outHandle
      else (s.consume 1).respond { ok := some false })

/-- CLEANUP (R121). -/
def execCleanup (s : State) : Result :=
  s.whenMet [(decide (s.inProgress = []), .nested)] fun s =>
    match s.life with
    | .ready => .next s.stopMachine
    | .uninit => .next { s with life := .released, response := {} }
    | .released => .next (s.raise .lifecycle)

/-- EXECAT (R122): the engine's CS:IP becomes `segment:offset`; outside real mode it has no meaning
(U1). -/
def execExecat (segment offset : Half) (s : State) : Result :=
  s.whenReady fun s =>
    if s.outsideRealMode then .refused .execatOutsideRealMode
    else .next (((s.record (.engineExecuteAt segment offset)).updateEngine
      fun e => { e with cs := segment, ip := offset }).begin .execat)

/-- STEP (R123): one call of the engine's step, or nothing in the Halted state. Both checks raise where both
fail, and the first one's reason stands (log entry 10). -/
def execStep (s : State) : Result :=
  s.whenMet [(decide (s.life = .ready), .notReady), (decide (s.inProgress = []), .nested)] fun s =>
    if s.running = false then .next ({ s with stepIssued := true }.respond {})
    else .next (({ s with stepIssued := true }.record .engineStep).begin .step)

/-- REQINT (R124). -/
def execReqint (vector : Byte) (s : State) : Result :=
  s.whenReady fun s => .next ((s.record (.engineRequestInterrupt vector)).begin .reqint)

/-- SIGINT (R125): the engine's pending flag is set. It is in progress until the engine returns only where
the engine issues commands from inside the call (R91). -/
def execSigint (s : State) : Result :=
  s.whenReady fun s =>
    let t := ((s.record .engineSignalInterrupt).updateEngine fun e => { e with pending := true }).consume 1
    .next (if s.calledBack 1 then t.begin .sigint else t.respond {})

/-- TERM (R127). -/
def execTerm (s : State) : Result :=
  s.whenReady fun s => .next (s.halt.respond {})

/-- RDSTAT (R128): served in every state, after a contract fault too. -/
def execRdstat (s : State) : Result :=
  .next (s.respond { status := some s.statusWord })

end Sys2Proof.Machine
end

