-- ==== Sys2Proof/Machine/Hypercall.lean ====
section
/-! DEFINITION. The Hypercall Trap Registry's commands and port-I/O forwarding (spec/43_hypercall.md
R150 to R155). -/

namespace Sys2Proof.Machine

/-- REGBOP (R150). -/
def execRegbop (id : Byte) (handler : Handle) (s : State) : Result :=
  s.whenReady fun s =>
    if handler ∈ s.params.handlers then .next ((s.setTrap id handler).respond {})
    else .next (s.raise .badHandle)

/-- DISPBOP (R151): the handler runs, and may issue commands, until it returns. The built-in DEBUG_BREAK
(R154) only records its event. -/
def execDispbop (id : Byte) (stackContext : Word) (s : State) : Result :=
  s.whenReady fun s =>
    match s.trap id with
    | none => .next (s.raise .unregisteredBop)
    | some .debugBreak => .next ((s.record (.debugBreak stackContext)).respond {})
    | some (.host h) =>
      .next ((s.record (.handlerCall (.host h) stackContext)).begin (.handler (.host h)))

/-- PIORD (R152): the router's answer is the response when it returns. -/
def execPiord (port : Half) (size : Word) (s : State) : Result :=
  s.whenReady fun s => .next ((s.record (.portRead port size)).begin (.portRead size))

/-- PIOWR (R153). -/
def execPiowr (port : Half) (size : Word) (payload : List Byte) (s : State) : Result :=
  s.whenReady fun s => .next ((s.record (.portWrite port size payload)).begin .portWrite)

end Sys2Proof.Machine
end

