-- ==== Sys2Proof/Machine/Dispatch.lean ====
section
/-! DEFINITION. One arm per command (spec/30_encoding.md R86). -/

namespace Sys2Proof.Machine

def exec (i : Instr) (s : State) : Host.Outcome State Fault Refusal :=
  match i with
  | .mread address length dst => Sys2Proof.Machine.execMread address length dst s
  | .mwrite address length payload => Sys2Proof.Machine.execMwrite address length payload s
  | .seta20 enabled => Sys2Proof.Machine.execSeta20 enabled s
  | .intack => Sys2Proof.Machine.execIntack s
  | .repexc n cs ip => Sys2Proof.Machine.execRepexc n cs ip s
  | .dispbop id stackContext => Sys2Proof.Machine.execDispbop id stackContext s
  | .piord port size => Sys2Proof.Machine.execPiord port size s
  | .piowr port size payload => Sys2Proof.Machine.execPiowr port size payload s
  | .init inHandle outHandle => Sys2Proof.Machine.execInit inHandle outHandle s
  | .cleanup => Sys2Proof.Machine.execCleanup s
  | .execat segment offset => Sys2Proof.Machine.execExecat segment offset s
  | .step => Sys2Proof.Machine.execStep s
  | .reqint vector => Sys2Proof.Machine.execReqint vector s
  | .sigint => Sys2Proof.Machine.execSigint s
  | .term => Sys2Proof.Machine.execTerm s
  | .regbop id handler => Sys2Proof.Machine.execRegbop id handler s
  | .rdstat => Sys2Proof.Machine.execRdstat s

end Sys2Proof.Machine
end

