-- ==== Sys2Proof/Machine/Step.lean ====
section
/-! DEFINITION. One step of the machine: the block takes the next input, and serves it if it is a
command (spec/20_memory.md R60, R65; spec/30_encoding.md R87). -/

namespace Sys2Proof.Machine

/-- One step. With no input left the block waits, unchanged: the run is over when the host issues no
further command (R179). -/
def step (s : State) : Host.Outcome State Fault Refusal :=
  match s.inputs with
  | [] => .next s
  | .command r :: rest =>
    match decode r with
    | .ok i => exec i { s with inputs := rest }
    | .error _ => .next (State.illegalCommand { s with inputs := rest })
  | .agentReturns :: rest => .next (State.agentReturns { s with inputs := rest })
  | .engineMoves e :: rest => .next (State.engineMoves { s with inputs := rest } e)
  | .hostLoad image :: rest => .next (State.hostLoad { s with inputs := rest } image)

/-- `s` with a command issued next: the request that a word of spec/opcode_table.json stands for, put
before every other input. -/
def State.withFetchWord (s : State) (nbits w : Nat) : State :=
  match Request.ofBytes (.host 0) (tableBytes nbits w) with
  | some r => { s with inputs := .command r :: s.inputs }
  | none => s

end Sys2Proof.Machine
end

