-- ==== Sys2Proof/Safety.lean ====
section
/-! DEFINITION. What counts as a good state and as a good run, in the terms the claims use
(spec/60_exceptions.md R163, R179; spec/10_state.md R24, R25, R35; spec/43_hypercall.md R155). -/

namespace Sys2Proof.Machine

/-- The block serves every command: READY, and no contract fault recorded (R28, R110, R163). -/
abbrev State.Ready (s : State) : Prop := s.life = .ready ∧ s.cfault = none

/-- The arena's bytes stand in canonical form and inside `[0, MAX_ADDRESS)` (R25). -/
abbrev State.ArenaOk (s : State) : Prop :=
  s.arena.wf ∧ ∀ c ∈ s.arena, c.1 < s.params.maxAddress

/-- An INIT in progress. -/
def Activity.isInit : Activity → Bool
  | .init _ => true
  | .cleanup _ | .sigint | .step | .execat | .reqint | .handler _ | .portRead _ | .portWrite => false

/-- A CLEANUP in progress. -/
def Activity.isCleanup : Activity → Bool
  | .cleanup _ => true
  | .init _ | .sigint | .step | .execat | .reqint | .handler _ | .portRead _ | .portWrite => false

/-- A call that CLEANUP makes. -/
def Call.isCleanup : Call → Bool
  | .deviceCleanup _ => true
  | .engineConstruct | .deviceInit _ | .inputInit _ _ | .enableInterrupts => false

/-- What may be in progress while READY: no INIT, and a CLEANUP with nothing but its own calls left. -/
def Activity.mayRunWhileReady : Activity → Bool
  | .init _ => false
  | .cleanup left => left.all Call.isCleanup
  | .sigint | .step | .execat | .reqint | .handler _ | .portRead _ | .portWrite => true

/-- An INIT that has still to enable interrupts, and so to register the debugger break. -/
def Activity.stillEnables : Activity → Bool
  | .init left => left.contains .enableInterrupts
  | .cleanup _ | .sigint | .step | .execat | .reqint | .handler _ | .portRead _ | .portWrite => false

/-- What stands in progress (R91, R120, R121): before INIT nothing or one INIT, which has its engine and,
once the call that comes after its registration is made, the debugger break; while READY no INIT, and a
CLEANUP only as the outermost command; after CLEANUP nothing. -/
abbrev State.ProgressOk (s : State) : Prop :=
  (s.life = .uninit → s.inProgress.length ≤ 1 ∧ ∀ act ∈ s.inProgress, act.isInit = true ∧
    s.engine.isSome = true ∧
    (act.stillEnables = true ∨ s.traps = [(s.params.debugBopId.toNat, .debugBreak)])) ∧
  (s.life = .ready → (∀ act ∈ s.inProgress, act.mayRunWhileReady = true) ∧
    ∀ act ∈ s.inProgress.dropLast, act.isCleanup = false) ∧
  (s.life = .released → s.inProgress = [])

/-- The lifecycle (R24, R35): the arena exists only while READY, the engine exists from INIT on, and before
INIT everything is as at creation. -/
abbrev State.LifeOk (s : State) : Prop :=
  (s.life ≠ .ready → s.arena = []) ∧
  (s.life = .ready → s.engine.isSome = true) ∧
  (s.life = .uninit → s.a20 = s.params.a20Reset ∧ s.running = true ∧ s.stepIssued = false) ∧
  (s.life = .uninit → s.inProgress = [] → s.traps = [] ∧ s.history = [] ∧ s.engine = none) ∧
  s.ProgressOk

/-- The trap table (R155): canonical, 8-bit identifiers, handles the machine knows, and an entry for the
debugger break from INIT on. -/
abbrev State.TrapsOk (s : State) : Prop :=
  tableSorted s.traps ∧
  (∀ c ∈ s.traps, c.1 < 256 ∧ (c.2 = .debugBreak ∨ c.2 ∈ s.params.handlers)) ∧
  (s.life ≠ .uninit → s.engine.isSome = true → (s.trap s.params.debugBopId).isSome = true)

/-- The invariant of the block. -/
abbrev State.Inv (s : State) : Prop := s.params.wf ∧ s.ArenaOk ∧ s.LifeOk ∧ s.TrapsOk

/-- What a run leaves to judge it by (R179). -/
structure RunOutcome where
  status  : Word
  arena   : Memory
  history : List Event
  deriving DecidableEq, Repr

/-- The outcome of a run that ends in `s` (R179). -/
def State.runOutcome (s : State) : RunOutcome :=
  { status := s.statusWord, arena := s.arena, history := s.history }

/-- "A run is successful only if `cfault = none`", and it is over when no command is left (R179). R179 names
these as conditions a successful run meets; that nothing more is asked, so that a run whose last command
has not returned (U10) counts as successful as well, is the model's choice (log entry 18). -/
abbrev State.Successful (s : State) : Prop := s.cfault = none ∧ s.inputs = []

end Sys2Proof.Machine
end

