-- ==== Sys2Proof/Certificates/Slice0/Obligations.lean ====
section
/-! DEFINITION. The statements for the provers. Where one names a next state, it names it field by
field: a field not named is unchanged. -/

open Sys2Proof Sys2Proof.Machine

/-! ## The encoding -/

/-- Every well-formed command is what the decoder reads from the request the encoder writes for it
(R81 to R84, R86). -/
def Obligations.DecodeOfEncodeIsTheCommand : Prop :=
  ∀ i : Instr, i.wellFormed = true → decode (encode i) = .ok i

/-- A request that decodes gives a well-formed command, and encoding that command gives back the command
word and every operand the command lists (R80 to R84): no listed bit is dropped. -/
def Obligations.DecodedCommandHoldsEveryListedField : Prop :=
  ∀ (r : Request) (i : Instr), decode r = .ok i →
    i.wellFormed = true ∧ (encode i).cmd = r.cmd ∧
    match i with
    | .mread a n d | .mwrite a n d => a = r.a ∧ n = r.l ∧ d = r.data
    | .piowr p n d => p.setWidth 32 = r.a ∧ n = r.l ∧ d = r.data
    | .piord p n => p.setWidth 32 = r.a ∧ n = r.l
    | .repexc _ x y | .execat x y => x = r.a.extractLsb' 16 16 ∧ y = r.a.extractLsb' 0 16
    | .dispbop _ ctx => ctx = r.a
    | .init x y => x = r.a ∧ y = r.l
    | .regbop _ h => h = r.h
    | .seta20 _ | .intack | .cleanup | .step | .reqint _ | .sigint | .term | .rdstat => True

/-- No command word is selected by two rows of the opcode map (R86). -/
def Obligations.OpcodeRowsNeverOverlap : Prop :=
  ∀ (cmd : Word) (o o' : Opcode), o.selects cmd = true → o'.selects cmd = true → o = o'

/-- The clauses (a) to (f) of R87, in the words of R81 to R83. -/
def Sys2Proof.illegalEncoding (r : Request) : Prop :=
  let op := (r.cmd.extractLsb' 0 8).toNat
  let imm := (r.cmd.extractLsb' 8 8).toNat
  op ∉ [0x01, 0x02, 0x03, 0x04, 0x05, 0x06, 0x07, 0x08,
        0x10, 0x11, 0x12, 0x13, 0x14, 0x15, 0x16, 0x17, 0x18] ∨
  (r.cmd.extractLsb' 16 16).toNat ≠ 0 ∨
  (imm ≠ 0 ∧ op ∈ [0x01, 0x02, 0x04, 0x07, 0x08, 0x10, 0x11, 0x12, 0x13, 0x15, 0x16, 0x18]) ∨
  (1 < imm ∧ op = 0x03) ∨
  ((r.a.extractLsb' 16 16).toNat ≠ 0 ∧ op ∈ [0x07, 0x08]) ∨
  (r.data.length ≠ r.l.toNat ∧ op ∈ [0x01, 0x02, 0x08])

/-- Each illegal encoding raises ILLEGAL_CMD, and the command has no other effect (R87). The response is
absent, and the request is taken from the inputs. -/
def Obligations.IllegalEncodingRaisesIllegalCmd : Prop :=
  ∀ (s : State) (r : Request) (rest : List Input),
    s.inputs = .command r :: rest → s.cfault = none → illegalEncoding r →
    step s = .next { s with inputs := rest, cfault := some .illegalCmd, response := {} }

/-- A request is rejected only for a reason of R87: every other one carries a command (R86, "the opcode
map below is complete"; R88). -/
def Obligations.EveryLegalEncodingDecodes : Prop :=
  ∀ r : Request, ¬ illegalEncoding r → ∃ i, decode r = .ok i

/-- Command words written out bit by bit decode to the commands they stand for: the first is row 2 of the
program P1 of spec/95_test_vectors.md, the second is the same word without its DATA, which R87(f) rejects,
and the others are rows of the table of R94. That the handle of REGBOP is the one named 0 is the model's
choice (log entry 12). -/
def Obligations.ExampleWordsDecode : Prop :=
  decodeTableWord 128 0x44332211_00000004_000B7FFE_00000002 =
    some (.mwrite 0x000B7FFE 4 [0x11, 0x22, 0x33, 0x44]) ∧
  decodeTableWord 96 0x00000004_000B7FFE_00000002 = none ∧
  decodeTableWord 32 0x00000103 = some (.seta20 true) ∧
  decodeTableWord 32 0x00000003 = some (.seta20 false) ∧
  decodeTableWord 64 0x12340010_00000605 = some (.repexc 6 0x1234 0x0010) ∧
  decodeTableWord 64 0x0000FFFE_00005606 = some (.dispbop 0x56 0x0000FFFE) ∧
  decodeTableWord 96 0x00000001_00000060_00000007 = some (.piord 0x0060 1) ∧
  decodeTableWord 96 0x00000002_00000001_00000010 = some (.init 1 2) ∧
  decodeTableWord 64 0x00007C00_00000012 = some (.execat 0 0x7C00) ∧
  decodeTableWord 32 0x00001014 = some (.reqint 0x10) ∧
  decodeTableWord 32 0x00005617 = some (.regbop 0x56 (.host 0)) ∧
  decodeTableWord 32 0x00000018 = some .rdstat

/-- A serialized request reads back as itself, and its 32-bit fields are little-endian: byte `k` of a
field holds bits `8k+7 : 8k` (R85). The order of the fields (`CMD`, `A`, `L` at bytes 0, 4 and 8, `DATA` from
12 on) and the handle's place beside the bytes are the model's choice (log entry 12). -/
def Obligations.SerializedRequestReadsBack : Prop :=
  ∀ r : Request,
    Request.ofBytes r.h r.toBytes = some r ∧
    (∀ k < 4, r.toBytes[k]? = some (r.cmd.extractLsb' (8 * k) 8)) ∧
    (∀ k < 4, r.toBytes[4 + k]? = some (r.a.extractLsb' (8 * k) 8)) ∧
    (∀ k < 4, r.toBytes[8 + k]? = some (r.l.extractLsb' (8 * k) 8)) ∧
    (∀ k, r.toBytes[12 + k]? = r.data[k]?)

/-- The assembler form of a command stands for that command, and MREAD without `[dst]` means `len` bytes of
zero (R92); "`A20ON` expands to `SETA20 1` (`CMD =
0x00000103`), and `A20OFF` expands to `SETA20 0` (`CMD = 0x00000003`)" (R93). -/
def Obligations.AssemblerFormsStandForTheirCommands : Prop :=
  (∀ i : Instr, assemble i.assembly.1 i.assembly.2 = some i) ∧
  (∀ address length : Word, assemble (.command .mread) [.num address.toNat, .num length.toNat] =
    some (.mread address length (List.replicate length.toNat 0))) ∧
  assemble .a20on [] = some (.seta20 true) ∧ assemble .a20off [] = some (.seta20 false) ∧
  (encode (.seta20 true)).cmd = 0x00000103 ∧ (encode (.seta20 false)).cmd = 0x00000003

/-! ## A step -/

/-- A step takes the next request from the inputs and runs the command it decodes to. -/
def Obligations.StepRunsTheDecodedCommand : Prop :=
  ∀ (s : State) (r : Request) (rest : List Input) (i : Instr),
    s.inputs = .command r :: rest → decode r = .ok i → step s = exec i { s with inputs := rest }

/-- With nothing to serve the block waits (the model's reading of R179, log entry 5). -/
def Obligations.StepWithoutInputWaits : Prop :=
  ∀ s : State, s.inputs = [] → step s = .next s

/-- When the agent of the innermost command in progress returns, that command completes and no longer
counts as in progress; PIORD then answers `size` bytes, the router's, in their order (R91, R152). (INIT and
CLEANUP, which make several calls, have a statement of their own.) With none in progress, nothing happens
(the model's choice, log entry 6). -/
def Obligations.ReturnCompletesTheInnermostCommand : Prop :=
  ∀ (s : State) (rest : List Input), s.inputs = .agentReturns :: rest →
    (s.inProgress = [] → step s = .next { s with inputs := rest }) ∧
    (∀ (size : Word) (outer : List Activity), s.inProgress = .portRead size :: outer →
      step s = .next { s with
        inputs := rest
        inProgress := outer
        answers := s.answers.drop size.toNat
        drawn := s.drawn + (size.toNat - s.answers.length)
        response := { rdata := some <|
            (List.range size.toNat).map fun k => (s.answerAt k).value.setWidth 8 } }) ∧
    (∀ (act : Activity) (outer : List Activity), s.inProgress = act :: outer →
      (∀ size, act ≠ .portRead size) → (∀ left, act ≠ .init left) → (∀ left, act ≠ .cleanup left) →
      step s = .next { s with inputs := rest, inProgress := outer, response := {} })

/-- INIT and CLEANUP make their calls one after the other, in the source's order (R120, R121), each as an
event. Where the agent of a call issues commands before it returns, the command stays in progress at that
call, and they are nested in it (R91); otherwise the next call follows at once. After the last call INIT
ends READY with `OK = 1`, and CLEANUP ends RELEASED without an arena. A command that is to make a call is
the same as one whose call before it returns, and so a first step is stated as such a return. How many
answers a call takes, that the handles of INIT stand in the input device's event, that a contract
fault of a nested command outlives INIT, and that a call has its effect on the engine already while the
command is in progress at it are the model's choices (log entries 14, 12, 17 and 6), and that the engine is
in real mode at its construction is the model's reading of R172 (log entry 7). -/
def Obligations.InitAndCleanupMakeTheirCallsInTurn : Prop :=
  (∀ (s : State) (inHandle outHandle : Word),
    s.life = .uninit → s.cfault = none → s.inProgress = [] →
    (s.answerAt 0).value.getLsbD 0 = true →
    exec (.init inHandle outHandle) s = step { s with
      arena := []
      answers := s.answers.drop 1
      drawn := s.drawn + (1 - s.answers.length)
      inputs := .agentReturns :: s.inputs
      inProgress := [.init [.engineConstruct, .deviceInit .pic, .deviceInit .timer,
        .deviceInit .rtc, .deviceInit .sound, .inputInit inHandle outHandle, .enableInterrupts]] }) ∧
  (∀ s : State, s.Ready → s.inProgress = [] →
    exec .cleanup s = step { s with
      inputs := .agentReturns :: s.inputs
      inProgress := [.cleanup [.deviceCleanup .input, .deviceCleanup .sound, .deviceCleanup .rtc,
        .deviceCleanup .timer, .deviceCleanup .pic]] }) ∧
  (∀ (s : State) (rest : List Input) (frame : List Call → Activity) (c : Call) (left : List Call)
      (outer : List Activity),
    (frame = .init ∨ frame = .cleanup) →
    s.inputs = .agentReturns :: rest → s.inProgress = frame (c :: left) :: outer →
    let n := if c = .engineConstruct then 2 else 1
    let called : State := { s with
      inProgress := frame left :: outer
      engine := match c with
        | .engineConstruct => some {
            cs := (s.answerAt 0).value.extractLsb' 16 16
            ip := (s.answerAt 0).value.extractLsb' 0 16
            interruptEnable := (s.answerAt 1).value.getLsbD 1
            pending := (s.answerAt 1).value.getLsbD 0
            realMode := true }
        | .enableInterrupts => s.engine.map fun e => { e with interruptEnable := true }
        | .deviceInit _ | .inputInit _ _ | .deviceCleanup _ => s.engine
      traps := match c with
        | .enableInterrupts => [(s.params.debugBopId.toNat, .debugBreak)]
        | .engineConstruct | .deviceInit _ | .inputInit _ _ | .deviceCleanup _ => s.traps
      history := s.history ++ [match c with
        | .engineConstruct => .engineConstruct ⟨some .mread, some .mwrite, some .piord, some .piowr,
            none, some .dispbop, some .intack⟩
        | .deviceInit d => .deviceInit d
        | .inputInit inHandle outHandle => .inputInit inHandle outHandle
        | .enableInterrupts => .engineInterruptEnable true
        | .deviceCleanup d => .deviceCleanup d]
      answers := s.answers.drop n
      drawn := s.drawn + (n - s.answers.length) }
    ((∃ k < n, (s.answerAt k).callsBack = true) →
      step s = .next { called with inputs := rest, response := {} }) ∧
    ((∀ k < n, (s.answerAt k).callsBack = false) → step s = step called)) ∧
  (∀ (s : State) (rest : List Input) (outer : List Activity), s.inputs = .agentReturns :: rest →
    (s.inProgress = .init [] :: outer → step s = .next { s with
      inputs := rest
      inProgress := outer
      running := true
      life := .ready
      response := { ok := some true } }) ∧
    (s.inProgress = .cleanup [] :: outer → step s = .next { s with
      inputs := rest
      inProgress := outer
      arena := []
      life := .released
      response := {} }))

/-- The engine's own state changes of its own accord only inside a STEP, an EXECAT or a REQINT, and
nothing else changes with it (R7, R66; log entry 7). -/
def Obligations.EngineMovesOnlyWhileItRuns : Prop :=
  ∀ (s : State) (e : Engine) (rest : List Input), s.inputs = .engineMoves e :: rest →
    ((.step ∈ s.inProgress ∨ .execat ∈ s.inProgress ∨ .reqint ∈ s.inProgress) →
      step s = .next { s with inputs := rest, engine := some e }) ∧
    ((.step ∉ s.inProgress ∧ .execat ∉ s.inProgress ∧ .reqint ∉ s.inProgress) →
      step s = .next { s with inputs := rest })

/-- The host's image load (R193): while READY and before the first STEP it sets the listed bytes of
`[0, MAX_ADDRESS)` (the last entry of an address counts), the read-only region included, and nothing
else; before INIT, after CLEANUP and after the first STEP it has no effect. What closes the load, how a list
that names an address twice is read, and that the load takes effect also while a command is in progress are
the model's choices (log entry 9). -/
def Obligations.ImageLoadSetsBytesBeforeTheFirstStep : Prop :=
  ∀ (s : State) (image : List Host.Cell) (rest : List Input), s.inputs = .hostLoad image :: rest →
    (s.life = .ready ∧ s.stepIssued = false →
      ∃ m : Memory, step s = .next { s with inputs := rest, arena := m } ∧
        ∀ x, m.read x = if x < s.params.maxAddress then
            match image.reverse.find? (fun c => c.1 == x) with
            | some c => c.2
            | none => s.arena.read x
          else s.arena.read x) ∧
    (¬ (s.life = .ready ∧ s.stepIssued = false) → step s = .next { s with inputs := rest })

/-! ## Creation and status -/

/-- The state at creation (R190, R35): UNINIT, no arena, `a20 = A20_RESET`, running, no trap, no contract
fault, empty history, and no engine; with the defaults of R8. -/
def Obligations.ResetIsTheStateAtCreation : Prop :=
  State.reset.life = .uninit ∧ State.reset.arena = [] ∧
  State.reset.a20 = State.reset.params.a20Reset ∧ State.reset.running = true ∧
  State.reset.traps = [] ∧ State.reset.cfault = none ∧ State.reset.history = [] ∧
  State.reset.engine = none ∧ State.reset.params.maxAddress = 0x100000 ∧
  State.reset.params.romBase = 0xF0000 ∧ State.reset.params.romLimit = 0x100000 ∧
  State.reset.params.a20Reset = false

/-- RDSTAT answers the STATUS view and changes nothing, in every lifecycle state and after a contract
fault (R128): bit 0 A20, bit 1 RUN, bits 3:2 LIFE (1 READY, 2 RELEASED), bit 4 CF, the rest zero. The
requests with `CMD = 0x00000018`, and no others, are RDSTAT. -/
def Obligations.RdstatAnswersTheStatusView : Prop :=
  (∀ r : Request, decode r = .ok .rdstat ↔ r.cmd = 0x00000018) ∧
  ∀ s : State, ∃ v : Word,
    exec .rdstat s = .next { s with response := { status := some v } } ∧
    ∀ k < 32, v.getLsbD k =
      ((k = 0 && s.a20) || (k = 1 && s.running) || (k = 2 && s.life = .ready) ||
       (k = 3 && s.life = .released) || (k = 4 && s.cfault ≠ none))

/-! ## The memory arbiter -/

/-- Step 1 of an access: with the gate clear bit 20 is cleared and every other bit kept; with the gate
set the address is kept (R107). -/
def Obligations.A20MaskClearsBitTwenty : Prop :=
  ∀ address : Word,
    maskA20 true address = address ∧ maskA20 false address = address &&& 0xFFEFFFFF ∧
    ∀ k < 32, (maskA20 false address).getLsbD k = (address.getLsbD k && k ≠ 20)

/-- A dropped access changes nothing, calls no device, raises nothing, and a dropped read answers the
caller's buffer (R106). Dropped are: a request whose masked address and length reach `MAX_ADDRESS`, the
sum exact, and a write whose range meets the read-only region. -/
def Obligations.DroppedAccessHasNoEffect : Prop :=
  ∀ (s : State) (address length : Word) (dst payload : List Byte), s.Ready →
    let a := (maskA20 s.a20 address).toNat
    (s.params.maxAddress ≤ a + length.toNat →
      exec (.mread address length dst) s =
        .next { s with response := { rdata := some dst } }) ∧
    (s.params.maxAddress ≤ a + length.toNat ∨
        (∃ x, a ≤ x ∧ x < a + length.toNat ∧ s.params.romBase ≤ x ∧ x < s.params.romLimit) →
      exec (.mwrite address length payload) s = .next { s with response := {} })

/-- An MREAD below `MAX_ADDRESS` completes (R101, R104). It samples the video bounds (answers 0 and 1),
lets the device fill the part of the range that lies in the video region (answers from 2 on), in the
arena too, and answers the arena's bytes, the device's among them; every other byte of the arena, the
read-only region's among them, reads as before. A command issued from inside one of the device's
entries raises REENTRANT (R91); that the read completes all the same is the model's choice (log entry
8), and so are the answers as a list (log entry 2). -/
def Obligations.ReadAnswersArenaAndDeviceBytes : Prop :=
  ∀ (s : State) (address length : Word) (dst : List Byte), s.Ready →
    (maskA20 s.a20 address).toNat + length.toNat < s.params.maxAddress →
    let a := (maskA20 s.a20 address).toNat
    let vb := (s.answerAt 0).value
    let vl := (s.answerAt 1).value
    let lo := max a vb.toNat
    let hi := min (a + length.toNat) vl.toNat
    let filled := fun x => if lo ≤ x ∧ x < hi then (s.answerAt (2 + (x - lo))).value.setWidth 8
      else s.arena.read x
    let asked := 2 + (hi - lo)
    ∃ m : Memory, (∀ x, m.read x = filled x) ∧
      exec (.mread address length dst) s = .next { s with
        arena := m
        cfault := if ∃ k < asked, (s.answerAt k).callsBack = true then some .reentrant else none
        history := s.history ++ [.videoBase vb, .videoLimit vl] ++
          (if lo < hi then [.deviceRead lo (hi - lo)
            ((List.range (hi - lo)).map fun k => (s.answerAt (2 + k)).value.setWidth 8)] else [])
        answers := s.answers.drop asked
        drawn := s.drawn + (asked - s.answers.length)
        response := { rdata := some ((List.range length.toNat).map fun k => filled (a + k)) } }

/-- An MWRITE below `MAX_ADDRESS` that does not meet the read-only region completes (R102, R105). It
stores the payload at the masked address and changes no other byte of the arena; it samples the video
bounds (answers 0 and 1), and then forwards to the device exactly the part of the payload that lies in
the video region (one more answer). A command issued from inside one of the device's entries raises
REENTRANT (R91); that the write completes all the same is the model's choice (log entry 8), and so are
the answers as a list (log entry 2). -/
def Obligations.WriteStoresPayloadAndTellsTheDevice : Prop :=
  ∀ (s : State) (address length : Word) (payload : List Byte), s.Ready →
    payload.length = length.toNat →
    (maskA20 s.a20 address).toNat + length.toNat < s.params.maxAddress →
    (∀ x, (maskA20 s.a20 address).toNat ≤ x →
      x < (maskA20 s.a20 address).toNat + length.toNat →
      ¬ (s.params.romBase ≤ x ∧ x < s.params.romLimit)) →
    let a := (maskA20 s.a20 address).toNat
    let vb := (s.answerAt 0).value
    let vl := (s.answerAt 1).value
    let lo := max a vb.toNat
    let hi := min (a + length.toNat) vl.toNat
    let asked := if lo < hi then 3 else 2
    ∃ m : Memory,
      (∀ k < length.toNat, some (m.read (a + k)) = payload[k]?) ∧
      (∀ x, x < a ∨ a + length.toNat ≤ x → m.read x = s.arena.read x) ∧
      exec (.mwrite address length payload) s = .next { s with
        arena := m
        cfault := if ∃ k < asked, (s.answerAt k).callsBack = true then some .reentrant else none
        history := s.history ++ [.videoBase vb, .videoLimit vl] ++
          (if lo < hi then [.deviceWrite lo
            ((List.range (hi - lo)).map fun k => m.read (lo + k)) (hi - lo)] else [])
        answers := s.answers.drop asked
        drawn := s.drawn + (asked - s.answers.length)
        response := {} }

/-- A read sees the bytes of the write before it (R65, R69), where the video region, as the read samples
it, does not meet the range. That the read completes also where the video device calls back during its
queries of the bounds is the model's choice (log entry 8), and so are the answers as a list (log entry
2). -/
def Obligations.ReadAfterWriteAnswersThePayload : Prop :=
  ∀ (s t : State) (address length : Word) (dst payload : List Byte), s.Ready →
    payload.length = length.toNat → ¬ s.dropped .write address length →
    exec (.mwrite address length payload) s = .next t → t.cfault = none →
    (∀ x, s.maskedAddress address ≤ x → x < s.maskedAddress address + length.toNat →
      ¬ ((t.answerAt 0).value.toNat ≤ x ∧ x < (t.answerAt 1).value.toNat)) →
    ∃ u, exec (.mread address length dst) t = .next u ∧ u.response = { rdata := some payload } ∧
      u.arena = t.arena

/-- A read inside the video region answers the device's bytes, whatever an earlier write stored there
(R114). That the read completes also where the device calls back during it is the model's choice (log
entry 8), and so are the answers as a list and which of them the read takes (log entries 2 and 14). -/
def Obligations.ReadInTheVideoRegionAnswersTheDevice : Prop :=
  ∀ (s : State) (address length : Word) (dst : List Byte), s.Ready →
    ¬ s.dropped .read address length →
    (s.answerAt 0).value.toNat ≤ s.maskedAddress address →
    s.maskedAddress address + length.toNat ≤ (s.answerAt 1).value.toNat →
    ∃ t, exec (.mread address length dst) s = .next t ∧
      t.response = { rdata := some <|
          (List.range length.toNat).map fun k => (s.answerAt (2 + k)).value.setWidth 8 }

/-- No MWRITE changes a byte of the read-only region, whatever its payload (R113). -/
def Obligations.WritesNeverChangeReadOnlyBytes : Prop :=
  ∀ (s t : State) (address length : Word) (payload : List Byte),
    payload.length = length.toNat → exec (.mwrite address length payload) s = .next t →
    ∀ x, s.params.romBase ≤ x → x < s.params.romLimit → t.arena.read x = s.arena.read x

/-- With the gate clear, two requests that differ in bit 20 of the address only are one request (R112). -/
def Obligations.BitTwentyIsIgnoredWhileTheGateIsClear : Prop :=
  ∀ (s : State) (address length : Word) (data : List Byte), s.a20 = false →
    exec (.mread (address ||| 0x00100000) length data) s = exec (.mread address length data) s ∧
    exec (.mwrite (address ||| 0x00100000) length data) s = exec (.mwrite address length data) s

/-- A request whose range includes byte `MAX_ADDRESS - 1` is dropped, so no access transfers the last
arena byte, and a range that ends one byte lower is not too long (R109). -/
def Obligations.LastArenaByteIsNeverTransferred : Prop :=
  ∀ (s : State) (address length : Word) (data : List Byte), s.Ready → s.params.wf →
    (s.maskedAddress address ≤ s.params.maxAddress - 1 →
      s.params.maxAddress - 1 < s.maskedAddress address + length.toNat →
      exec (.mread address length data) s = .next { s with response := { rdata := some data } } ∧
      exec (.mwrite address length data) s = .next { s with response := {} }) ∧
    (s.maskedAddress address = 0 → length.toNat = s.params.maxAddress - 1 →
      ¬ s.dropped .read address length)

/-- SETA20 sets the gate to the level it is given and changes nothing else (R103). -/
def Obligations.Seta20SetsTheGate : Prop :=
  ∀ (s : State) (enabled : Bool), s.Ready →
    exec (.seta20 enabled) s = .next { s with a20 := enabled, response := {} }

/-! ## The execution controller -/

/-- An INIT whose allocation succeeds, and inside whose calls no command is issued, makes the machine READY
(R120): a zero arena, the debugger break as the only trap, the engine constructed and its interrupts
enabled, the devices called in the source's order. The allocation's outcome, the engine's CS:IP and its
pending flag are external answers. That the engine starts in real mode is the model's reading of R172 (log
entry 7); the layout of the answers and the event that carries the two handles are its choices (log
entries 14 and 12). -/
def Obligations.InitStartsTheMachine : Prop :=
  ∀ (s : State) (inHandle outHandle : Word),
    s.life = .uninit → s.cfault = none → s.inProgress = [] →
    (s.answerAt 0).value.getLsbD 0 = true →
    (∀ k < 8, (s.answerAt (1 + k)).callsBack = false) →
    exec (.init inHandle outHandle) s = .next { s with
      life := .ready
      arena := []
      running := true
      traps := [(s.params.debugBopId.toNat, .debugBreak)]
      engine := some {
        cs := (s.answerAt 1).value.extractLsb' 16 16
        ip := (s.answerAt 1).value.extractLsb' 0 16
        interruptEnable := true
        pending := (s.answerAt 2).value.getLsbD 0
        realMode := true }
      history := s.history ++ [
        .engineConstruct ⟨some .mread, some .mwrite, some .piord, some .piowr, none,
          some .dispbop, some .intack⟩,
        .deviceInit .pic, .deviceInit .timer, .deviceInit .rtc, .deviceInit .sound,
        .inputInit inHandle outHandle, .engineInterruptEnable true]
      answers := s.answers.drop 9
      drawn := s.drawn + (9 - s.answers.length)
      response := { ok := some true } }

/-- After a successful INIT, whether it completes at once or when its last call returns, every arena byte
reads zero, the debugger break is registered, and STATUS reads 6, or 7 where `A20_RESET` is set (R31, R35,
R120). Bit 4 is set besides where a command nested in INIT raised a contract fault (log entry 17). -/
def Obligations.SuccessfulInitLeavesTheReadyStatus : Prop :=
  ∀ s t : State, s.Inv →
    ((∃ inHandle outHandle, exec (.init inHandle outHandle) s = .next t) ∨
      (∃ rest left, s.inputs = .agentReturns :: rest ∧ s.inProgress = [.init left] ∧
        step s = .next t)) →
    t.response.ok = some true →
    t.statusWord = (if s.params.a20Reset then 7 else 6) ||| (if t.cfault = none then 0 else 16) ∧
    (∀ x, t.arena.read x = 0) ∧ t.trap s.params.debugBopId = some .debugBreak

/-- An INIT whose allocation fails answers `OK = 0`, changes no block state, makes no call and is no
contract fault; and no other outcome reports a failure to the caller (R164). That the allocation's outcome
is bit 0 of one answer is the model's choice (log entry 14). -/
def Obligations.FailedInitChangesNothing : Prop :=
  (∀ (s : State) (inHandle outHandle : Word),
    s.life = .uninit → s.cfault = none → s.inProgress = [] →
    (s.answerAt 0).value.getLsbD 0 = false →
    exec (.init inHandle outHandle) s = .next { s with
      answers := s.answers.drop 1
      drawn := s.drawn + (1 - s.answers.length)
      response := { ok := some false } }) ∧
  (∀ (i : Instr) (s t : State), exec i s = .next t → t.response.ok = some false →
    ∃ inHandle outHandle, i = .init inHandle outHandle ∧ s.life = .uninit ∧ t.life = .uninit)

/-- INIT when the machine is not UNINIT is a LIFECYCLE fault (R120, R163), inside a command in progress too:
there R91 names NESTED as well, and the order of the checks in R120's pseudocode makes LIFECYCLE the one
recorded (log entry 10). -/
def Obligations.InitOutsideUninitIsALifecycleFault : Prop :=
  ∀ (s : State) (inHandle outHandle : Word), s.cfault = none → s.life ≠ .uninit →
    exec (.init inHandle outHandle) s =
      .next { s with cfault := some .lifecycle, response := {} }

/-- CLEANUP, where no device issues a command from inside its cleanup, releases a READY machine, its devices
cleaned up in the reverse order of INIT; from UNINIT it only goes to RELEASED; a second one is a LIFECYCLE
fault (R121). One answer for each call is the model's choice (log entry 14). -/
def Obligations.CleanupReleasesTheMachine : Prop :=
  ∀ s : State, s.cfault = none → s.inProgress = [] →
    (s.life = .ready → (∀ k < 5, (s.answerAt k).callsBack = false) →
      exec .cleanup s = .next { s with
        life := .released
        arena := []
        history := s.history ++ [.deviceCleanup .input, .deviceCleanup .sound, .deviceCleanup .rtc,
          .deviceCleanup .timer, .deviceCleanup .pic]
        answers := s.answers.drop 5
        drawn := s.drawn + (5 - s.answers.length)
        response := {} }) ∧
    (s.life = .uninit → exec .cleanup s = .next { s with life := .released, response := {} }) ∧
    (s.life = .released →
      exec .cleanup s = .next { s with cfault := some .lifecycle, response := {} })

/-- EXECAT calls the engine and makes its CS:IP `segment:offset`; it is not gated by the Run State, and
while the engine has it it is in progress (R122, R91). That the CS:IP is set already then is the model's
choice (log entry 6). -/
def Obligations.ExecatSetsTheEntryPoint : Prop :=
  ∀ (s : State) (e : Engine) (segment offset : Half), s.Ready → s.engine = some e →
    e.realMode = true →
    exec (.execat segment offset) s = .next { s with
      engine := some { e with cs := segment, ip := offset }
      history := s.history ++ [.engineExecuteAt segment offset]
      inProgress := .execat :: s.inProgress
      response := {} }

/-- EXECAT has no meaning while the engine is outside 16-bit real mode: "undefined by this layer" (R122,
U1 `refuse`). -/
def Obligations.ExecatOutsideRealModeIsRefused : Prop :=
  ∀ (s : State) (e : Engine) (segment offset : Half), s.Ready → s.engine = some e →
    e.realMode = false → exec (.execat segment offset) s = .refused .execatOutsideRealMode

/-- STEP calls the engine's step once and is in progress until it returns; in the Halted state it is a
no-op: no engine call and no event (R123, R129). That both close the image load is the model's reading of
R193 (log entry 9). -/
def Obligations.StepCommandCallsTheEngineOnceUnlessHalted : Prop :=
  ∀ s : State, s.Ready → s.inProgress = [] →
    (s.running = true → exec .step s = .next { s with
      history := s.history ++ [.engineStep]
      inProgress := [.step]
      stepIssued := true
      response := {} }) ∧
    (s.running = false → exec .step s = .next { s with stepIssued := true, response := {} })

/-- INIT, CLEANUP and STEP issued while any command is in progress have no effect but a contract fault (R91).
NESTED is recorded for CLEANUP in every lifecycle state, for STEP while READY and for INIT while UNINIT, which
is inside an INIT. Elsewhere the check that the pseudocode of R120 and R123 makes first fails too, and its
reason is the one recorded: LIFECYCLE for INIT, NOT_READY for STEP (R163, log entry 10). -/
def Obligations.NestedControlsRaiseNested : Prop :=
  ∀ (s : State) (inHandle outHandle : Word), s.cfault = none → s.inProgress ≠ [] →
    exec .cleanup s = .next { s with cfault := some .nested, response := {} } ∧
    exec (.init inHandle outHandle) s = .next { s with
      cfault := some (if s.life = .uninit then .nested else .lifecycle)
      response := {} } ∧
    exec .step s = .next { s with
      cfault := some (if s.life = .ready then .nested else .notReady)
      response := {} }

/-- REQINT asks the engine to service the vector it carries, with no acknowledge, and is in progress until
the engine returns (R124). -/
def Obligations.ReqintForwardsItsVector : Prop :=
  ∀ (s : State) (vector : Byte), s.Ready →
    exec (.reqint vector) s = .next { s with
      history := s.history ++ [.engineRequestInterrupt vector]
      inProgress := .reqint :: s.inProgress
      response := {} }

/-- SIGINT calls the engine's signal and sets its pending flag, and a second one leaves the one flag set
(R125). Where the engine issues commands from inside the call, SIGINT is in progress until it returns (R91);
that the flag is set already then, and that the call takes one answer, are the model's choices (log entries
6 and 14). -/
def Obligations.SigintSetsTheOnePendingFlag : Prop :=
  ∀ (s : State) (e : Engine), s.Ready → s.engine = some e →
    exec .sigint s = .next { s with
      engine := some { e with pending := true }
      history := s.history ++ [.engineSignalInterrupt]
      inProgress := if (s.answerAt 0).callsBack = true then .sigint :: s.inProgress else s.inProgress
      answers := s.answers.drop 1
      drawn := s.drawn + (1 - s.answers.length)
      response := {} } ∧
    ∀ t, exec .sigint s = .next t → ∃ u, exec .sigint t = .next u ∧ u.engine = t.engine

/-- TERM halts, and changes nothing else; halting twice is halting once (R127, C6). -/
def Obligations.TermHalts : Prop :=
  ∀ s : State, s.Ready → exec .term s = .next { s with running := false, response := {} }

/-! ## The interrupt and exception bridge -/

/-- INTACK queries the PIC once and answers the vector it commits to, whether or not an interrupt was
signalled (R140). A command issued from inside the query raises REENTRANT (R91); that INTACK completes all
the same is the model's choice (log entry 8), and so are the answers as a list (log entry 2). -/
def Obligations.IntackAnswersThePicVector : Prop :=
  ∀ s : State, s.Ready →
    exec .intack s = .next { s with
      history := s.history ++ [.picPendingVector ((s.answerAt 0).value.setWidth 8)]
      cfault := if (s.answerAt 0).callsBack = true then some .reentrant else none
      answers := s.answers.drop 1
      drawn := s.drawn + (1 - s.answers.length)
      response := { vec := some ((s.answerAt 0).value.setWidth 8) } }

/-- REPEXC with a legal number reports the kind, CS, IP and the diagnostic bytes, and halts (R141 to
R144): the bytes are those of the arena from the A20-masked `CS * 16 + IP` on, ten, or fewer where
`MAX_ADDRESS` comes first, with no device call; no arena byte changes. That `CS * 16 + IP` is the address
is general knowledge of the spec's own (G3, log entry 14); that the report completes although the message
surface issues a command (R91) is the model's choice (log entry 8). -/
def Obligations.RepexcReportsAndHalts : Prop :=
  ∀ (s : State) (n : Byte) (kind : ExcKind) (cs ip : Half), s.Ready →
    ([ExcKind.divideByZero, .debug, .unexpectedOrDoubleFault, .breakpoint, .overflow, .boundRange,
      .invalidOpcode, .deviceUnavailable])[n.toNat]? = some kind →
    let lin := cs.toNat * 16 + ip.toNat
    let l := if s.a20 = false ∧ 2 ^ 20 ≤ lin then lin - 2 ^ 20 else lin
    let bytes := ((List.range 10).filter fun k => l + k < s.params.maxAddress).map fun k =>
      s.arena.read (l + k)
    exec (.repexc n cs ip) s = .next { s with
      running := false
      history := s.history ++ [.report ⟨kind, cs, ip, bytes⟩]
      cfault := if (s.answerAt 0).callsBack = true then some .reentrant else none
      answers := s.answers.drop 1
      drawn := s.drawn + (1 - s.answers.length)
      response := {} }

/-! ## The trap registry and the ports -/

/-- REGBOP of a known handle registers it under its identifier, over any earlier entry, and leaves every
other identifier's entry (R150). -/
def Obligations.RegbopRegistersTheHandler : Prop :=
  ∀ (s : State) (id : Byte) (h : Handle), s.Ready → h ∈ s.params.handlers →
    ∃ traps : TrapTable,
      exec (.regbop id h) s = .next { s with traps := traps, response := {} } ∧
      tableLookup id.toNat traps = some h ∧
      ∀ id' : Byte, id' ≠ id → tableLookup id'.toNat traps = tableLookup id'.toNat s.traps

/-- DISPBOP invokes the host handler registered under its identifier exactly once, with the context it
carries, and is in progress until the handler returns (R151, R91). -/
def Obligations.DispbopInvokesTheHandlerOnce : Prop :=
  ∀ (s : State) (id : Byte) (name : Nat) (ctx : Word), s.Ready →
    tableLookup id.toNat s.traps = some (.host name) →
    exec (.dispbop id ctx) s = .next { s with
      history := s.history ++ [.handlerCall (.host name) ctx]
      inProgress := .handler (.host name) :: s.inProgress
      response := {} }

/-- The built-in debugger break records its event and completes; it changes nothing else and does not
halt (R154). -/
def Obligations.DebugBreakOnlyRecordsItsEvent : Prop :=
  ∀ (s : State) (id : Byte) (ctx : Word), s.Ready →
    tableLookup id.toNat s.traps = some .debugBreak →
    exec (.dispbop id ctx) s =
      .next { s with history := s.history ++ [.debugBreak ctx], response := {} }

/-- The legal encodings with an illegal operand value (R88) are contract faults with no other effect:
REPEXC with a number outside `0..7` (no report, no halt; R141), DISPBOP of an identifier with no entry
(R151), REGBOP of a handle outside HANDLERS (R150). -/
def Obligations.IllegalOperandValuesAreContractFaults : Prop :=
  ∀ s : State, s.Ready →
    (∀ (n : Byte) (cs ip : Half), 8 ≤ n.toNat →
      exec (.repexc n cs ip) s = .next { s with cfault := some .badExcNum, response := {} }) ∧
    (∀ (id : Byte) (ctx : Word), tableLookup id.toNat s.traps = none →
      exec (.dispbop id ctx) s =
        .next { s with cfault := some .unregisteredBop, response := {} }) ∧
    (∀ (id : Byte) (h : Handle), h ∉ s.params.handlers →
      exec (.regbop id h) s = .next { s with cfault := some .badHandle, response := {} })

/-- A handler registered by REGBOP is the one a later DISPBOP of the identifier invokes: the last
registration wins (R150, R151). -/
def Obligations.LastRegistrationWins : Prop :=
  ∀ (s t u : State) (id : Byte) (name name' : Nat) (ctx : Word), s.Ready →
    Handle.host name ∈ s.params.handlers → Handle.host name' ∈ s.params.handlers →
    exec (.regbop id (.host name)) s = .next t → exec (.regbop id (.host name')) t = .next u →
    ∃ v, exec (.dispbop id ctx) u = .next v ∧
      v.history = s.history ++ [.handlerCall (.host name') ctx]

/-- PIORD and PIOWR forward their port, size and payload to the router unchecked, change nothing else,
and are in progress until it returns (R152, R153). -/
def Obligations.PortCommandsForwardToTheRouter : Prop :=
  ∀ (s : State) (port : Half) (size : Word) (payload : List Byte), s.Ready →
    exec (.piord port size) s = .next { s with
      history := s.history ++ [.portRead port size]
      inProgress := .portRead size :: s.inProgress
      response := {} } ∧
    exec (.piowr port size payload) s = .next { s with
      history := s.history ++ [.portWrite port size payload]
      inProgress := .portWrite :: s.inProgress
      response := {} }

/-! ## The whole machine -/

/-- Every command but INIT, CLEANUP and RDSTAT is a NOT_READY fault with no other effect while the machine
is not READY (R110, R163, D16). A STEP inside an INIT in progress is one too: there R91 names NESTED as well,
and the order of the checks in R123's pseudocode makes NOT_READY the one recorded (log entry 10). -/
def Obligations.CommandsOutsideReadyAreContractFaults : Prop :=
  ∀ (i : Instr) (s : State), s.cfault = none → s.life ≠ .ready →
    i.opcode ≠ .init → i.opcode ≠ .cleanup → i.opcode ≠ .rdstat →
    exec i s = .next { s with cfault := some .notReady, response := {} }

/-- Once a contract fault is recorded, no command but RDSTAT is served: it has no effect and no response
(R28, R163). -/
def Obligations.AfterAContractFaultOnlyRdstatIsServed : Prop :=
  ∀ (i : Instr) (s : State), s.cfault ≠ none → i.opcode ≠ .rdstat →
    exec i s = .next { s with response := {} }

/-- A recorded contract fault is never cleared and never replaced, by any step (R28, "It is never cleared").
The return that ends an INIT inside which one was raised leaves it too: there the model's choice (log entry
17) follows these words against R120's own `cfault <- none` and R28's "It is `none` after creation and after
INIT". -/
def Obligations.ContractFaultIsNeverCleared : Prop :=
  ∀ (s t : State) (r : ContractFault), s.cfault = some r → step s = .next t → t.cfault = some r

/-- SETA20 is the only command that writes the A20 Gate, and nothing between commands does (R22). -/
def Obligations.OnlySeta20WritesTheGate : Prop :=
  (∀ (i : Instr) (s t : State), exec i s = .next t →
    t.a20 = s.a20 ∨ ∃ b, i = .seta20 b ∧ t.a20 = b) ∧
  (∀ s t : State, step s = .next t → t.a20 ≠ s.a20 →
    ∃ r rest b, s.inputs = .command r :: rest ∧ decode r = .ok (.seta20 b))

/-- The Run State goes one way (R23, R129): only TERM and REPEXC clear it, nothing sets it but an INIT
from UNINIT, so that a machine that has been initialized and has halted stays halted. (The premise is the
block's invariant: it rules out an INIT in progress on a machine that is no longer UNINIT.) -/
def Obligations.HaltIsFinal : Prop :=
  (∀ s t : State, s.Inv → s.life ≠ .uninit → s.running = false → step s = .next t →
    t.running = false ∧ t.life ≠ .uninit) ∧
  (∀ (i : Instr) (s t : State), exec i s = .next t → s.running = true → t.running = false →
    i.opcode = .term ∨ i.opcode = .repexc)

/-- From INIT on, a step leaves every entry of the trap table as it is, but the one whose identifier a
REGBOP names, and that one it leaves with the handle the REGBOP names: no entry is ever removed, and each
holds the handle of the latest REGBOP for it (R155). (The premise is the block's invariant: it rules out an
INIT in progress on a machine that is no longer UNINIT.) -/
def Obligations.TrapTableOnlyGrows : Prop :=
  ∀ (s t : State) (id : Byte), s.Inv → s.life ≠ .uninit → step s = .next t →
    t.trap id = s.trap id ∨
    ∃ r rest h, s.inputs = .command r :: rest ∧ decode r = .ok (.regbop id h) ∧ t.trap id = some h

/-- A response holds only the fields its command lists (R80, R86): RDATA after MREAD, VEC after INTACK, OK
after INIT, STATUS after RDSTAT; PIORD answers when its router returns, and INIT when its last call does. -/
def Obligations.ResponsesHoldOnlyListedFields : Prop :=
  ∀ (i : Instr) (s t : State), exec i s = .next t →
    (t.response.rdata ≠ none → i.opcode = .mread) ∧
    (t.response.vec ≠ none → i.opcode = .intack) ∧
    (t.response.ok ≠ none → i.opcode = .init) ∧
    (t.response.status ≠ none ↔ i.opcode = .rdstat)

/-- Every interaction is appended to the history in the order made: no step drops or reorders an
earlier event (R29). -/
def Obligations.HistoryOnlyGrows : Prop :=
  ∀ s t : State, step s = .next t → ∃ events, t.history = s.history ++ events

/-- "No command's effect depends on" the history (R29): with another history in its place a command
appends the same events and leaves the same state. -/
def Obligations.HistoryHasNoEffect : Prop :=
  ∀ (i : Instr) (s : State) (other : List Event), i.wellFormed = true →
    (∃ t events, exec i s = .next t ∧ t.history = s.history ++ events ∧
      exec i { s with history := other } = .next { t with history := other ++ events }) ∨
    (∃ r, exec i s = .refused r ∧ exec i { s with history := other } = .refused r)

/-- No step writes the machine's parameters (R8, R27). -/
def Obligations.ParametersNeverChange : Prop :=
  ∀ s t : State, step s = .next t → t.params = s.params

/-- Sandbox containment (R173, R25). The arena's two access operations fault on every request that would
touch a byte at or above `MAX_ADDRESS`, no step faults, from any state, and no step, an image load
included, changes what a byte at or above `MAX_ADDRESS` reads as (where the arena is created anew or
released, nothing is listed). -/
def Obligations.NoStepLeavesTheArena : Prop :=
  (∀ (s : State) (a n : Nat), n ≠ 0 → s.params.maxAddress < a + n →
    s.copyOut a n = .error .outsideArena) ∧
  (∀ (s : State) (a : Nat) (bytes : List Byte), bytes ≠ [] →
    s.params.maxAddress < a + bytes.length → s.copyIn a bytes = .error .outsideArena) ∧
  (∀ (s : State) (f : Fault), step s ≠ .fault f) ∧
  (∀ (s t : State) (x : Nat), step s = .next t → s.params.maxAddress ≤ x →
    t.arena = [] ∨ t.arena.read x = s.arena.read x)

/-- Sandbox containment, the reading side (R173): what a command answers, records and leaves inside the
arena does not depend on anything outside `[0, MAX_ADDRESS)`. -/
def Obligations.NothingOutsideTheArenaIsRead : Prop :=
  ∀ (i : Instr) (s t : State) (m : Memory), i.wellFormed = true →
    (∀ x < s.params.maxAddress, m.read x = s.arena.read x) → exec i s = .next t →
    ∃ t', exec i { s with arena := m } = .next t' ∧ t'.response = t.response ∧
      t'.history = t.history ∧ t'.statusWord = t.statusWord ∧
      ∀ x < s.params.maxAddress, t'.arena.read x = t.arena.read x

/-- Every step keeps the block's invariant (R24, R25, R35, R155): the arena in canonical form inside
`[0, MAX_ADDRESS)` and present only while READY; no command in progress outside READY but an INIT before it;
no INIT in progress while READY, and a CLEANUP only outermost; the state before INIT as at creation; and
the debugger break registered from INIT on. -/
def Obligations.StepKeepsTheBlockInvariant : Prop :=
  ∀ s t : State, s.Inv → step s = .next t → t.Inv

/-- The state at creation meets the invariant. -/
def Obligations.ResetMeetsTheBlockInvariant : Prop := State.reset.Inv
end

