-- ==== Sys2Proof/Laws/Decode.lean ====
section
/-! SUPPORT. The fields of an encoded command, and the row its word selects. -/

namespace Sys2Proof

@[simp] theorem immField_commandWord (o : Opcode) (imm : Byte) :
    immField (commandWord o imm) = imm := by
  unfold immField commandWord
  ext i hi
  simp only [BitVec.getElem_extractLsb', BitVec.getLsbD_or, BitVec.getLsbD_shiftLeft,
    BitVec.getLsbD_setWidth, BitVec.getLsbD_of_ge o.code (8 + i) (by omega)]
  simp [show 8 + i < 32 by omega, show i < 32 by omega, BitVec.getLsbD_eq_getElem hi]

@[simp] theorem highHalf_packHalves (x y : Half) : highHalf (packHalves x y) = x := by
  unfold highHalf packHalves
  ext i hi
  simp only [BitVec.getElem_extractLsb', BitVec.getLsbD_or, BitVec.getLsbD_shiftLeft,
    BitVec.getLsbD_setWidth, BitVec.getLsbD_of_ge y (16 + i) (by omega)]
  simp [show 16 + i < 32 by omega, show i < 32 by omega, BitVec.getLsbD_eq_getElem hi]

@[simp] theorem lowHalf_packHalves (x y : Half) : lowHalf (packHalves x y) = y := by
  unfold lowHalf packHalves
  ext i hi
  simp [show i < 32 by omega, hi]

/-- A row whose `IMM8` is an operand selects its command words, whatever the operand. -/
theorem opcodeOf_withImm (o : Opcode) (ho : o.mask = 0xFFFF00FF) (imm : Byte) :
    opcodeOf (commandWord o imm) = some o := by
  revert imm ho; cases o <;> decide

/-- A row selects its command word without an operand. -/
theorem opcodeOf_bare (o : Opcode) : opcodeOf (commandWord o 0) = some o := by
  cases o <;> decide

/-- A command word is its three fields (R81). -/
theorem word_ext {x y : Word} :
    x = y ↔ (opField x = opField y ∧ immField x = immField y ∧ rsvField x = rsvField y) := by
  constructor
  · rintro rfl; exact ⟨rfl, rfl, rfl⟩
  · rintro ⟨h1, h2, h3⟩
    apply BitVec.eq_of_getLsbD_eq
    intro i hi
    by_cases h : i < 8
    · have := congrArg (fun b => b.getLsbD i) h1
      simpa [opField, h] using this
    · by_cases h' : i < 16
      · have := congrArg (fun b => b.getLsbD (i - 8)) h2
        simpa [immField, show i - 8 < 8 by omega, show 8 + (i - 8) = i by omega] using this
      · have := congrArg (fun b => b.getLsbD (i - 16)) h3
        simpa [rsvField, show i - 16 < 16 by omega, show 16 + (i - 16) = i by omega] using this

theorem opField_and (x y : Word) : opField (x &&& y) = opField x &&& opField y := by
  unfold opField; ext i hi; simp
theorem immField_and (x y : Word) : immField (x &&& y) = immField x &&& immField y := by
  unfold immField; ext i hi; simp
theorem rsvField_and (x y : Word) : rsvField (x &&& y) = rsvField x &&& rsvField y := by
  unfold rsvField; ext i hi; simp

/-- A row selects the words with its `OP`, no bit of `IMM8` that the row's mask fixes, and `RSV` zero. -/
theorem selects_iff (o : Opcode) (cmd : Word) :
    o.selects cmd = true ↔
      opField cmd = o.code ∧ immField cmd &&& immField o.mask = 0 ∧ rsvField cmd = 0 := by
  simp only [Opcode.selects, beq_iff_eq]
  rw [word_ext, opField_and, immField_and, rsvField_and]
  have h1 : opField o.mask = BitVec.allOnes 8 := by cases o <;> rfl
  have h2 : rsvField o.mask = BitVec.allOnes 16 := by cases o <;> rfl
  have h3 : opField o.matchWord = o.code := by cases o <;> rfl
  have h4 : immField o.matchWord = 0 := by cases o <;> rfl
  have h5 : rsvField o.matchWord = 0 := by cases o <;> rfl
  rw [h1, h2, h3, h4, h5, BitVec.and_allOnes, BitVec.and_allOnes]

/-- The row found is the row that selects. -/
theorem opcodeOf_eq_some {cmd : Word} {o : Opcode} :
    opcodeOf cmd = some o ↔ o.selects cmd = true := by
  constructor
  · intro h
    exact List.find?_some (p := fun o => Opcode.selects o cmd) h
  · intro h
    unfold opcodeOf
    cases hf : Opcode.all.find? (·.selects cmd) with
    | none =>
      have := List.find?_eq_none.1 hf o (by cases o <;> decide)
      exact absurd h this
    | some o' =>
      have h' := List.find?_some hf
      have : o'.code = o.code := ((selects_iff o' cmd).1 h').1.symm.trans ((selects_iff o cmd).1 h).1
      revert this
      cases o <;> cases o' <;> decide

/-- The bytes of a number read back as it, up to their width (R85). -/
theorem ofLe_leBytes (n v : Nat) : ofLeBytes (leBytes n v) = v % 256 ^ n := by
  induction n generalizing v with
  | zero => simp [leBytes, ofLeBytes, Nat.mod_one]
  | succ n ih =>
    simp only [leBytes, ofLeBytes, ih, BitVec.toNat_ofNat]
    rw [show 256 ^ (n + 1) = 256 * 256 ^ n by ring, Nat.mod_mul]

@[simp] theorem length_leBytes (n v : Nat) : (leBytes n v).length = n := by
  induction n generalizing v with
  | zero => rfl
  | succ n ih => simp [leBytes, ih]

/-- Byte `k` of a number holds bits `8k+7 : 8k` (R85). -/
theorem get_leBytes (n v k : Nat) (h : k < n) :
    (leBytes n v)[k]? = some (BitVec.ofNat 8 (v / 256 ^ k)) := by
  induction n generalizing v k with
  | zero => omega
  | succ n ih =>
    cases k with
    | zero => simp [leBytes]
    | succ k =>
      simp only [leBytes, List.getElem?_cons_succ]
      rw [ih _ _ (by omega), Nat.pow_succ, Nat.mul_comm (256 ^ k) 256, Nat.div_div_eq_div_mul]

end Sys2Proof
end

