-- ==== Sys2Proof/Laws/Memory.lean ====
section
/-! SUPPORT. The laws of tables kept in canonical form, and of the arena's bytes. -/

namespace Sys2Proof.Machine

section Table
variable {α : Type}

@[simp] theorem tableLookup_insert_same (k : Nat) (v : α) (t : List (Nat × α)) :
    tableLookup k (tableInsert k v t) = some v := by
  induction t with
  | nil => simp [tableInsert, tableLookup]
  | cons c t ih =>
    obtain ⟨k', v'⟩ := c
    simp only [tableInsert]
    split
    · simp [tableLookup]
    · split
      · simp [tableLookup]
      · rename_i h; simp [tableLookup, h, ih]

theorem tableLookup_insert_ne {k j : Nat} (h : j ≠ k) (v : α) (t : List (Nat × α)) :
    tableLookup j (tableInsert k v t) = tableLookup j t := by
  induction t with
  | nil => simp [tableInsert, tableLookup, h]
  | cons c t ih =>
    obtain ⟨k', v'⟩ := c
    simp only [tableInsert]
    split
    · simp [tableLookup, h]
    · split
      · rename_i hk; subst hk; simp [tableLookup, h]
      · simp [tableLookup, ih]

@[simp] theorem tableLookup_erase_same (k : Nat) (t : List (Nat × α)) :
    tableLookup k (tableErase k t) = none := by
  induction t with
  | nil => simp [tableErase, tableLookup]
  | cons c t ih =>
    obtain ⟨k', v'⟩ := c
    simp only [tableErase, List.filter_cons] at ih ⊢
    by_cases h : k' = k
    · simpa [h] using ih
    · simp only [ne_eq, h, not_false_eq_true, decide_true, ite_true, tableLookup]
      rw [if_neg (fun e => h e.symm)]
      simpa using ih

theorem tableLookup_erase_ne {k j : Nat} (h : j ≠ k) (t : List (Nat × α)) :
    tableLookup j (tableErase k t) = tableLookup j t := by
  induction t with
  | nil => simp [tableErase, tableLookup]
  | cons c t ih =>
    obtain ⟨k', v'⟩ := c
    simp only [tableErase, List.filter_cons] at ih ⊢
    by_cases hk : k' = k
    · subst hk; simpa [tableLookup, h] using ih
    · simp only [ne_eq, hk, not_false_eq_true, decide_true, ite_true, tableLookup]
      rw [show (t.filter fun c => decide ¬c.1 = k) = t.filter fun c => decide (c.1 ≠ k) from rfl]
      rw [ih]

/-- Every entry of a table after an insertion is the new one or was there. -/
theorem mem_tableInsert {k : Nat} {v : α} {t : List (Nat × α)} {c : Nat × α}
    (h : c ∈ tableInsert k v t) : c = (k, v) ∨ c ∈ t := by
  induction t with
  | nil => simpa [tableInsert] using h
  | cons d t ih =>
    obtain ⟨k', v'⟩ := d
    simp only [tableInsert] at h
    split at h
    · simpa using h
    · split at h
      · rcases List.mem_cons.1 h with h | h
        · exact .inl h
        · exact .inr (List.mem_cons_of_mem _ h)
      · rcases List.mem_cons.1 h with h | h
        · exact .inr (h ▸ List.mem_cons_self)
        · exact (ih h).imp id (List.mem_cons_of_mem _)

theorem tableSorted_insert (k : Nat) (v : α) {t : List (Nat × α)} (h : tableSorted t) :
    tableSorted (tableInsert k v t) := by
  induction t with
  | nil => simp [tableInsert, tableSorted]
  | cons c t ih =>
    obtain ⟨k', v'⟩ := c
    simp only [tableSorted, List.map_cons, List.pairwise_cons] at h
    simp only [tableInsert]
    split
    · rename_i hk
      simp only [tableSorted, List.map_cons, List.pairwise_cons, List.mem_cons]
      refine ⟨?_, h⟩
      rintro b (rfl | hb)
      · exact hk
      · exact hk.trans (h.1 b hb)
    · split
      · rename_i hk; subst hk
        simpa only [tableSorted, List.map_cons, List.pairwise_cons] using h
      · rename_i h1 h2
        simp only [tableSorted, List.map_cons, List.pairwise_cons]
        refine ⟨?_, ih h.2⟩
        intro b hb
        obtain ⟨c, hc, rfl⟩ := List.mem_map.1 hb
        rcases mem_tableInsert hc with rfl | hc
        · simp only; omega
        · exact h.1 _ (List.mem_map_of_mem hc)

theorem mem_tableErase {k : Nat} {t : List (Nat × α)} {c : Nat × α} (h : c ∈ tableErase k t) :
    c ∈ t := List.mem_of_mem_filter h

theorem tableSorted_erase (k : Nat) {t : List (Nat × α)} (h : tableSorted t) :
    tableSorted (tableErase k t) :=
  List.Pairwise.sublist (List.filter_sublist.map _) h

theorem mem_of_tableLookup {k : Nat} {v : α} {t : List (Nat × α)} (h : tableLookup k t = some v) :
    (k, v) ∈ t := by
  induction t with
  | nil => simp [tableLookup] at h
  | cons c t ih =>
    obtain ⟨k', v'⟩ := c
    simp only [tableLookup] at h
    split at h
    · rename_i hk; cases h; subst hk; exact List.mem_cons_self
    · exact List.mem_cons_of_mem _ (ih h)

end Table

namespace Memory

@[simp] theorem read_nil (a : Nat) : Memory.read [] a = 0 := rfl

@[simp] theorem read_write_same (m : Memory) (a : Nat) (v : Byte) : (m.write a v).read a = v := by
  unfold Memory.write Memory.read
  split <;> simp_all

theorem read_write_ne {a b : Nat} (h : b ≠ a) (m : Memory) (v : Byte) :
    (m.write a v).read b = m.read b := by
  unfold Memory.write Memory.read
  split
  · rw [tableLookup_erase_ne h]
  · rw [tableLookup_insert_ne h]

theorem wf_nil : Memory.wf [] := by simp [Memory.wf, tableSorted]

/-- A write keeps the canonical form. -/
theorem wf_write {m : Memory} (h : m.wf) (a : Nat) (v : Byte) : (m.write a v).wf := by
  unfold Memory.write
  split
  · exact ⟨tableSorted_erase a h.1, fun c hc => h.2 c (mem_tableErase hc)⟩
  · rename_i hv
    refine ⟨tableSorted_insert a v h.1, fun c hc => ?_⟩
    rcases mem_tableInsert hc with rfl | hc
    · exact hv
    · exact h.2 c hc

/-- A write lists no address but its own and those listed before. -/
theorem mem_write {m : Memory} {a : Nat} {v : Byte} {c : Host.Cell} (h : c ∈ m.write a v) :
    c.1 = a ∨ c ∈ m := by
  unfold Memory.write at h
  split at h
  · exact .inr (mem_tableErase h)
  · exact (mem_tableInsert h).imp (fun e => by rw [e]) id

@[simp] theorem writeBytes_nil (m : Memory) (a : Nat) : m.writeBytes a [] = m := rfl

theorem wf_writeBytes {m : Memory} (h : m.wf) (a : Nat) (vs : List Byte) :
    (m.writeBytes a vs).wf := by
  induction vs generalizing m a with
  | nil => exact h
  | cons v vs ih => exact ih (wf_write h a v) (a + 1)

/-- The bytes written keep every listed address below a bound they lie below. -/
theorem lt_of_mem_writeBytes {m : Memory} {a n : Nat} {vs : List Byte}
    (hm : ∀ c ∈ m, c.1 < n) (ha : vs = [] ∨ a + vs.length ≤ n) :
    ∀ c ∈ m.writeBytes a vs, c.1 < n := by
  induction vs generalizing m a with
  | nil => exact hm
  | cons v vs ih =>
    have ha' : a + (vs.length + 1) ≤ n := by simpa using ha
    refine ih (fun c hc => ?_) (.inr (by omega))
    rcases mem_write hc with h | h
    · omega
    · exact hm c h

theorem read_writeBytes_outside {m : Memory} {a x : Nat} {vs : List Byte}
    (h : x < a ∨ a + vs.length ≤ x) : (m.writeBytes a vs).read x = m.read x := by
  induction vs generalizing m a with
  | nil => rfl
  | cons v vs ih =>
    simp only [List.length_cons] at h
    show ((m.write a v).writeBytes (a + 1) vs).read x = _
    rw [ih (by omega), read_write_ne (by omega)]

theorem read_writeBytes_inside {m : Memory} {a k : Nat} {vs : List Byte} (h : k < vs.length) :
    (m.writeBytes a vs).read (a + k) = vs[k] := by
  induction vs generalizing m a k with
  | nil => simp at h
  | cons v vs ih =>
    show ((m.write a v).writeBytes (a + 1) vs).read (a + k) = _
    cases k with
    | zero => rw [read_writeBytes_outside (by omega)]; simp
    | succ k =>
      have := ih (m := m.write a v) (a := a + 1) (k := k) (by simpa using h)
      rw [show a + (k + 1) = a + 1 + k by omega, this]; rfl

@[simp] theorem length_readBytes (m : Memory) (a n : Nat) : (m.readBytes a n).length = n := by
  simp [Memory.readBytes]

@[simp] theorem getElem_readBytes (m : Memory) (a n k : Nat) (h : k < (m.readBytes a n).length) :
    (m.readBytes a n)[k] = m.read (a + k) := by
  simp [Memory.readBytes]

/-- Bytes written and read back at once are the bytes. -/
theorem readBytes_writeBytes (m : Memory) (a : Nat) (vs : List Byte) :
    (m.writeBytes a vs).readBytes a vs.length = vs := by
  apply List.ext_getElem (by simp)
  intro k h1 h2
  rw [getElem_readBytes, read_writeBytes_inside h2]

end Memory

end Sys2Proof.Machine
end

