-- ==== Sys2Proof/Laws/State.lean ====
section
/-! SUPPORT. What each update of the state leaves in each field. -/

namespace Sys2Proof.Machine.State

/-! ### record -/

@[simp] theorem record_params (s : State) (e : Event) : (s.record e).params = s.params := rfl
@[simp] theorem record_life (s : State) (e : Event) : (s.record e).life = s.life := rfl
@[simp] theorem record_a20 (s : State) (e : Event) : (s.record e).a20 = s.a20 := rfl
@[simp] theorem record_running (s : State) (e : Event) : (s.record e).running = s.running := rfl
@[simp] theorem record_arena (s : State) (e : Event) : (s.record e).arena = s.arena := rfl
@[simp] theorem record_traps (s : State) (e : Event) : (s.record e).traps = s.traps := rfl
@[simp] theorem record_cfault (s : State) (e : Event) : (s.record e).cfault = s.cfault := rfl
@[simp] theorem record_history (s : State) (e : Event) : (s.record e).history = s.history ++ [e] := rfl
@[simp] theorem record_response (s : State) (e : Event) : (s.record e).response = s.response := rfl
@[simp] theorem record_inProgress (s : State) (e : Event) : (s.record e).inProgress = s.inProgress := rfl
@[simp] theorem record_stepIssued (s : State) (e : Event) : (s.record e).stepIssued = s.stepIssued := rfl
@[simp] theorem record_engine (s : State) (e : Event) : (s.record e).engine = s.engine := rfl
@[simp] theorem record_inputs (s : State) (e : Event) : (s.record e).inputs = s.inputs := rfl
@[simp] theorem record_answers (s : State) (e : Event) : (s.record e).answers = s.answers := rfl
@[simp] theorem record_drawn (s : State) (e : Event) : (s.record e).drawn = s.drawn := rfl

/-! ### recordAll -/

@[simp] theorem recordAll_params (s : State) (es : List Event) : (s.recordAll es).params = s.params := rfl
@[simp] theorem recordAll_life (s : State) (es : List Event) : (s.recordAll es).life = s.life := rfl
@[simp] theorem recordAll_a20 (s : State) (es : List Event) : (s.recordAll es).a20 = s.a20 := rfl
@[simp] theorem recordAll_running (s : State) (es : List Event) : (s.recordAll es).running = s.running := rfl
@[simp] theorem recordAll_arena (s : State) (es : List Event) : (s.recordAll es).arena = s.arena := rfl
@[simp] theorem recordAll_traps (s : State) (es : List Event) : (s.recordAll es).traps = s.traps := rfl
@[simp] theorem recordAll_cfault (s : State) (es : List Event) : (s.recordAll es).cfault = s.cfault := rfl
@[simp] theorem recordAll_history (s : State) (es : List Event) : (s.recordAll es).history = s.history ++ es := rfl
@[simp] theorem recordAll_response (s : State) (es : List Event) : (s.recordAll es).response = s.response := rfl
@[simp] theorem recordAll_inProgress (s : State) (es : List Event) : (s.recordAll es).inProgress = s.inProgress := rfl
@[simp] theorem recordAll_stepIssued (s : State) (es : List Event) : (s.recordAll es).stepIssued = s.stepIssued := rfl
@[simp] theorem recordAll_engine (s : State) (es : List Event) : (s.recordAll es).engine = s.engine := rfl
@[simp] theorem recordAll_inputs (s : State) (es : List Event) : (s.recordAll es).inputs = s.inputs := rfl
@[simp] theorem recordAll_answers (s : State) (es : List Event) : (s.recordAll es).answers = s.answers := rfl
@[simp] theorem recordAll_drawn (s : State) (es : List Event) : (s.recordAll es).drawn = s.drawn := rfl

/-! ### respond -/

@[simp] theorem respond_params (s : State) (r : Response) : (s.respond r).params = s.params := rfl
@[simp] theorem respond_life (s : State) (r : Response) : (s.respond r).life = s.life := rfl
@[simp] theorem respond_a20 (s : State) (r : Response) : (s.respond r).a20 = s.a20 := rfl
@[simp] theorem respond_running (s : State) (r : Response) : (s.respond r).running = s.running := rfl
@[simp] theorem respond_arena (s : State) (r : Response) : (s.respond r).arena = s.arena := rfl
@[simp] theorem respond_traps (s : State) (r : Response) : (s.respond r).traps = s.traps := rfl
@[simp] theorem respond_cfault (s : State) (r : Response) : (s.respond r).cfault = s.cfault := rfl
@[simp] theorem respond_history (s : State) (r : Response) : (s.respond r).history = s.history := rfl
@[simp] theorem respond_response (s : State) (r : Response) : (s.respond r).response = r := rfl
@[simp] theorem respond_inProgress (s : State) (r : Response) : (s.respond r).inProgress = s.inProgress := rfl
@[simp] theorem respond_stepIssued (s : State) (r : Response) : (s.respond r).stepIssued = s.stepIssued := rfl
@[simp] theorem respond_engine (s : State) (r : Response) : (s.respond r).engine = s.engine := rfl
@[simp] theorem respond_inputs (s : State) (r : Response) : (s.respond r).inputs = s.inputs := rfl
@[simp] theorem respond_answers (s : State) (r : Response) : (s.respond r).answers = s.answers := rfl
@[simp] theorem respond_drawn (s : State) (r : Response) : (s.respond r).drawn = s.drawn := rfl

/-! ### consume -/

@[simp] theorem consume_params (s : State) (n : Nat) : (s.consume n).params = s.params := rfl
@[simp] theorem consume_life (s : State) (n : Nat) : (s.consume n).life = s.life := rfl
@[simp] theorem consume_a20 (s : State) (n : Nat) : (s.consume n).a20 = s.a20 := rfl
@[simp] theorem consume_running (s : State) (n : Nat) : (s.consume n).running = s.running := rfl
@[simp] theorem consume_arena (s : State) (n : Nat) : (s.consume n).arena = s.arena := rfl
@[simp] theorem consume_traps (s : State) (n : Nat) : (s.consume n).traps = s.traps := rfl
@[simp] theorem consume_cfault (s : State) (n : Nat) : (s.consume n).cfault = s.cfault := rfl
@[simp] theorem consume_history (s : State) (n : Nat) : (s.consume n).history = s.history := rfl
@[simp] theorem consume_response (s : State) (n : Nat) : (s.consume n).response = s.response := rfl
@[simp] theorem consume_inProgress (s : State) (n : Nat) : (s.consume n).inProgress = s.inProgress := rfl
@[simp] theorem consume_stepIssued (s : State) (n : Nat) : (s.consume n).stepIssued = s.stepIssued := rfl
@[simp] theorem consume_engine (s : State) (n : Nat) : (s.consume n).engine = s.engine := rfl
@[simp] theorem consume_inputs (s : State) (n : Nat) : (s.consume n).inputs = s.inputs := rfl
@[simp] theorem consume_answers (s : State) (n : Nat) : (s.consume n).answers = s.answers.drop n := rfl
@[simp] theorem consume_drawn (s : State) (n : Nat) : (s.consume n).drawn = s.drawn + (n - s.answers.length) := rfl

/-! ### noteFault -/

@[simp] theorem noteFault_params (s : State) (r : ContractFault) : (s.noteFault r).params = s.params := rfl
@[simp] theorem noteFault_life (s : State) (r : ContractFault) : (s.noteFault r).life = s.life := rfl
@[simp] theorem noteFault_a20 (s : State) (r : ContractFault) : (s.noteFault r).a20 = s.a20 := rfl
@[simp] theorem noteFault_running (s : State) (r : ContractFault) : (s.noteFault r).running = s.running := rfl
@[simp] theorem noteFault_arena (s : State) (r : ContractFault) : (s.noteFault r).arena = s.arena := rfl
@[simp] theorem noteFault_traps (s : State) (r : ContractFault) : (s.noteFault r).traps = s.traps := rfl
@[simp] theorem noteFault_cfault (s : State) (r : ContractFault) : (s.noteFault r).cfault = s.cfault.or (some r) := rfl
@[simp] theorem noteFault_history (s : State) (r : ContractFault) : (s.noteFault r).history = s.history := rfl
@[simp] theorem noteFault_response (s : State) (r : ContractFault) : (s.noteFault r).response = s.response := rfl
@[simp] theorem noteFault_inProgress (s : State) (r : ContractFault) : (s.noteFault r).inProgress = s.inProgress := rfl
@[simp] theorem noteFault_stepIssued (s : State) (r : ContractFault) : (s.noteFault r).stepIssued = s.stepIssued := rfl
@[simp] theorem noteFault_engine (s : State) (r : ContractFault) : (s.noteFault r).engine = s.engine := rfl
@[simp] theorem noteFault_inputs (s : State) (r : ContractFault) : (s.noteFault r).inputs = s.inputs := rfl
@[simp] theorem noteFault_answers (s : State) (r : ContractFault) : (s.noteFault r).answers = s.answers := rfl
@[simp] theorem noteFault_drawn (s : State) (r : ContractFault) : (s.noteFault r).drawn = s.drawn := rfl

/-! ### raise -/

@[simp] theorem raise_params (s : State) (r : ContractFault) : (s.raise r).params = s.params := rfl
@[simp] theorem raise_life (s : State) (r : ContractFault) : (s.raise r).life = s.life := rfl
@[simp] theorem raise_a20 (s : State) (r : ContractFault) : (s.raise r).a20 = s.a20 := rfl
@[simp] theorem raise_running (s : State) (r : ContractFault) : (s.raise r).running = s.running := rfl
@[simp] theorem raise_arena (s : State) (r : ContractFault) : (s.raise r).arena = s.arena := rfl
@[simp] theorem raise_traps (s : State) (r : ContractFault) : (s.raise r).traps = s.traps := rfl
@[simp] theorem raise_cfault (s : State) (r : ContractFault) : (s.raise r).cfault = s.cfault.or (some r) := rfl
@[simp] theorem raise_history (s : State) (r : ContractFault) : (s.raise r).history = s.history := rfl
@[simp] theorem raise_response (s : State) (r : ContractFault) : (s.raise r).response = {} := rfl
@[simp] theorem raise_inProgress (s : State) (r : ContractFault) : (s.raise r).inProgress = s.inProgress := rfl
@[simp] theorem raise_stepIssued (s : State) (r : ContractFault) : (s.raise r).stepIssued = s.stepIssued := rfl
@[simp] theorem raise_engine (s : State) (r : ContractFault) : (s.raise r).engine = s.engine := rfl
@[simp] theorem raise_inputs (s : State) (r : ContractFault) : (s.raise r).inputs = s.inputs := rfl
@[simp] theorem raise_answers (s : State) (r : ContractFault) : (s.raise r).answers = s.answers := rfl
@[simp] theorem raise_drawn (s : State) (r : ContractFault) : (s.raise r).drawn = s.drawn := rfl

/-! ### callReentrantFree -/

@[simp] theorem callReentrantFree_params (s : State) (n : Nat) : (s.callReentrantFree n).params = s.params := by
  unfold callReentrantFree; split <;> rfl
@[simp] theorem callReentrantFree_life (s : State) (n : Nat) : (s.callReentrantFree n).life = s.life := by
  unfold callReentrantFree; split <;> rfl
@[simp] theorem callReentrantFree_a20 (s : State) (n : Nat) : (s.callReentrantFree n).a20 = s.a20 := by
  unfold callReentrantFree; split <;> rfl
@[simp] theorem callReentrantFree_running (s : State) (n : Nat) : (s.callReentrantFree n).running = s.running := by
  unfold callReentrantFree; split <;> rfl
@[simp] theorem callReentrantFree_arena (s : State) (n : Nat) : (s.callReentrantFree n).arena = s.arena := by
  unfold callReentrantFree; split <;> rfl
@[simp] theorem callReentrantFree_traps (s : State) (n : Nat) : (s.callReentrantFree n).traps = s.traps := by
  unfold callReentrantFree; split <;> rfl
@[simp] theorem callReentrantFree_cfault (s : State) (n : Nat) : (s.callReentrantFree n).cfault = if s.calledBack n then s.cfault.or (some .reentrant) else s.cfault := by
  unfold callReentrantFree; split <;> rfl
@[simp] theorem callReentrantFree_history (s : State) (n : Nat) : (s.callReentrantFree n).history = s.history := by
  unfold callReentrantFree; split <;> rfl
@[simp] theorem callReentrantFree_response (s : State) (n : Nat) : (s.callReentrantFree n).response = s.response := by
  unfold callReentrantFree; split <;> rfl
@[simp] theorem callReentrantFree_inProgress (s : State) (n : Nat) : (s.callReentrantFree n).inProgress = s.inProgress := by
  unfold callReentrantFree; split <;> rfl
@[simp] theorem callReentrantFree_stepIssued (s : State) (n : Nat) : (s.callReentrantFree n).stepIssued = s.stepIssued := by
  unfold callReentrantFree; split <;> rfl
@[simp] theorem callReentrantFree_engine (s : State) (n : Nat) : (s.callReentrantFree n).engine = s.engine := by
  unfold callReentrantFree; split <;> rfl
@[simp] theorem callReentrantFree_inputs (s : State) (n : Nat) : (s.callReentrantFree n).inputs = s.inputs := by
  unfold callReentrantFree; split <;> rfl
@[simp] theorem callReentrantFree_answers (s : State) (n : Nat) : (s.callReentrantFree n).answers = s.answers.drop n := by
  unfold callReentrantFree; split <;> rfl
@[simp] theorem callReentrantFree_drawn (s : State) (n : Nat) : (s.callReentrantFree n).drawn = s.drawn + (n - s.answers.length) := by
  unfold callReentrantFree; split <;> rfl

/-! ### begin -/

@[simp] theorem begin_params (s : State) (act : Activity) : (s.begin act).params = s.params := rfl
@[simp] theorem begin_life (s : State) (act : Activity) : (s.begin act).life = s.life := rfl
@[simp] theorem begin_a20 (s : State) (act : Activity) : (s.begin act).a20 = s.a20 := rfl
@[simp] theorem begin_running (s : State) (act : Activity) : (s.begin act).running = s.running := rfl
@[simp] theorem begin_arena (s : State) (act : Activity) : (s.begin act).arena = s.arena := rfl
@[simp] theorem begin_traps (s : State) (act : Activity) : (s.begin act).traps = s.traps := rfl
@[simp] theorem begin_cfault (s : State) (act : Activity) : (s.begin act).cfault = s.cfault := rfl
@[simp] theorem begin_history (s : State) (act : Activity) : (s.begin act).history = s.history := rfl
@[simp] theorem begin_response (s : State) (act : Activity) : (s.begin act).response = {} := rfl
@[simp] theorem begin_inProgress (s : State) (act : Activity) : (s.begin act).inProgress = act :: s.inProgress := rfl
@[simp] theorem begin_stepIssued (s : State) (act : Activity) : (s.begin act).stepIssued = s.stepIssued := rfl
@[simp] theorem begin_engine (s : State) (act : Activity) : (s.begin act).engine = s.engine := rfl
@[simp] theorem begin_inputs (s : State) (act : Activity) : (s.begin act).inputs = s.inputs := rfl
@[simp] theorem begin_answers (s : State) (act : Activity) : (s.begin act).answers = s.answers := rfl
@[simp] theorem begin_drawn (s : State) (act : Activity) : (s.begin act).drawn = s.drawn := rfl

/-! ### halt -/

@[simp] theorem halt_params (s : State) : (s.halt).params = s.params := rfl
@[simp] theorem halt_life (s : State) : (s.halt).life = s.life := rfl
@[simp] theorem halt_a20 (s : State) : (s.halt).a20 = s.a20 := rfl
@[simp] theorem halt_running (s : State) : (s.halt).running = false := rfl
@[simp] theorem halt_arena (s : State) : (s.halt).arena = s.arena := rfl
@[simp] theorem halt_traps (s : State) : (s.halt).traps = s.traps := rfl
@[simp] theorem halt_cfault (s : State) : (s.halt).cfault = s.cfault := rfl
@[simp] theorem halt_history (s : State) : (s.halt).history = s.history := rfl
@[simp] theorem halt_response (s : State) : (s.halt).response = s.response := rfl
@[simp] theorem halt_inProgress (s : State) : (s.halt).inProgress = s.inProgress := rfl
@[simp] theorem halt_stepIssued (s : State) : (s.halt).stepIssued = s.stepIssued := rfl
@[simp] theorem halt_engine (s : State) : (s.halt).engine = s.engine := rfl
@[simp] theorem halt_inputs (s : State) : (s.halt).inputs = s.inputs := rfl
@[simp] theorem halt_answers (s : State) : (s.halt).answers = s.answers := rfl
@[simp] theorem halt_drawn (s : State) : (s.halt).drawn = s.drawn := rfl

/-! ### setA20 -/

@[simp] theorem setA20_params (s : State) (b : Bool) : (s.setA20 b).params = s.params := rfl
@[simp] theorem setA20_life (s : State) (b : Bool) : (s.setA20 b).life = s.life := rfl
@[simp] theorem setA20_a20 (s : State) (b : Bool) : (s.setA20 b).a20 = b := rfl
@[simp] theorem setA20_running (s : State) (b : Bool) : (s.setA20 b).running = s.running := rfl
@[simp] theorem setA20_arena (s : State) (b : Bool) : (s.setA20 b).arena = s.arena := rfl
@[simp] theorem setA20_traps (s : State) (b : Bool) : (s.setA20 b).traps = s.traps := rfl
@[simp] theorem setA20_cfault (s : State) (b : Bool) : (s.setA20 b).cfault = s.cfault := rfl
@[simp] theorem setA20_history (s : State) (b : Bool) : (s.setA20 b).history = s.history := rfl
@[simp] theorem setA20_response (s : State) (b : Bool) : (s.setA20 b).response = s.response := rfl
@[simp] theorem setA20_inProgress (s : State) (b : Bool) : (s.setA20 b).inProgress = s.inProgress := rfl
@[simp] theorem setA20_stepIssued (s : State) (b : Bool) : (s.setA20 b).stepIssued = s.stepIssued := rfl
@[simp] theorem setA20_engine (s : State) (b : Bool) : (s.setA20 b).engine = s.engine := rfl
@[simp] theorem setA20_inputs (s : State) (b : Bool) : (s.setA20 b).inputs = s.inputs := rfl
@[simp] theorem setA20_answers (s : State) (b : Bool) : (s.setA20 b).answers = s.answers := rfl
@[simp] theorem setA20_drawn (s : State) (b : Bool) : (s.setA20 b).drawn = s.drawn := rfl

/-! ### setTrap -/

@[simp] theorem setTrap_params (s : State) (id : Byte) (h : Handle) : (s.setTrap id h).params = s.params := rfl
@[simp] theorem setTrap_life (s : State) (id : Byte) (h : Handle) : (s.setTrap id h).life = s.life := rfl
@[simp] theorem setTrap_a20 (s : State) (id : Byte) (h : Handle) : (s.setTrap id h).a20 = s.a20 := rfl
@[simp] theorem setTrap_running (s : State) (id : Byte) (h : Handle) : (s.setTrap id h).running = s.running := rfl
@[simp] theorem setTrap_arena (s : State) (id : Byte) (h : Handle) : (s.setTrap id h).arena = s.arena := rfl
@[simp] theorem setTrap_traps (s : State) (id : Byte) (h : Handle) : (s.setTrap id h).traps = tableInsert id.toNat h s.traps := rfl
@[simp] theorem setTrap_cfault (s : State) (id : Byte) (h : Handle) : (s.setTrap id h).cfault = s.cfault := rfl
@[simp] theorem setTrap_history (s : State) (id : Byte) (h : Handle) : (s.setTrap id h).history = s.history := rfl
@[simp] theorem setTrap_response (s : State) (id : Byte) (h : Handle) : (s.setTrap id h).response = s.response := rfl
@[simp] theorem setTrap_inProgress (s : State) (id : Byte) (h : Handle) : (s.setTrap id h).inProgress = s.inProgress := rfl
@[simp] theorem setTrap_stepIssued (s : State) (id : Byte) (h : Handle) : (s.setTrap id h).stepIssued = s.stepIssued := rfl
@[simp] theorem setTrap_engine (s : State) (id : Byte) (h : Handle) : (s.setTrap id h).engine = s.engine := rfl
@[simp] theorem setTrap_inputs (s : State) (id : Byte) (h : Handle) : (s.setTrap id h).inputs = s.inputs := rfl
@[simp] theorem setTrap_answers (s : State) (id : Byte) (h : Handle) : (s.setTrap id h).answers = s.answers := rfl
@[simp] theorem setTrap_drawn (s : State) (id : Byte) (h : Handle) : (s.setTrap id h).drawn = s.drawn := rfl

/-! ### updateEngine -/

@[simp] theorem updateEngine_params (s : State) (f : Engine → Engine) : (s.updateEngine f).params = s.params := rfl
@[simp] theorem updateEngine_life (s : State) (f : Engine → Engine) : (s.updateEngine f).life = s.life := rfl
@[simp] theorem updateEngine_a20 (s : State) (f : Engine → Engine) : (s.updateEngine f).a20 = s.a20 := rfl
@[simp] theorem updateEngine_running (s : State) (f : Engine → Engine) : (s.updateEngine f).running = s.running := rfl
@[simp] theorem updateEngine_arena (s : State) (f : Engine → Engine) : (s.updateEngine f).arena = s.arena := rfl
@[simp] theorem updateEngine_traps (s : State) (f : Engine → Engine) : (s.updateEngine f).traps = s.traps := rfl
@[simp] theorem updateEngine_cfault (s : State) (f : Engine → Engine) : (s.updateEngine f).cfault = s.cfault := rfl
@[simp] theorem updateEngine_history (s : State) (f : Engine → Engine) : (s.updateEngine f).history = s.history := rfl
@[simp] theorem updateEngine_response (s : State) (f : Engine → Engine) : (s.updateEngine f).response = s.response := rfl
@[simp] theorem updateEngine_inProgress (s : State) (f : Engine → Engine) : (s.updateEngine f).inProgress = s.inProgress := rfl
@[simp] theorem updateEngine_stepIssued (s : State) (f : Engine → Engine) : (s.updateEngine f).stepIssued = s.stepIssued := rfl
@[simp] theorem updateEngine_engine (s : State) (f : Engine → Engine) : (s.updateEngine f).engine = s.engine.map f := rfl
@[simp] theorem updateEngine_inputs (s : State) (f : Engine → Engine) : (s.updateEngine f).inputs = s.inputs := rfl
@[simp] theorem updateEngine_answers (s : State) (f : Engine → Engine) : (s.updateEngine f).answers = s.answers := rfl
@[simp] theorem updateEngine_drawn (s : State) (f : Engine → Engine) : (s.updateEngine f).drawn = s.drawn := rfl

/-! ### setArena -/

@[simp] theorem setArena_params (s : State) (m : Memory) : (s.setArena m).params = s.params := rfl
@[simp] theorem setArena_life (s : State) (m : Memory) : (s.setArena m).life = s.life := rfl
@[simp] theorem setArena_a20 (s : State) (m : Memory) : (s.setArena m).a20 = s.a20 := rfl
@[simp] theorem setArena_running (s : State) (m : Memory) : (s.setArena m).running = s.running := rfl
@[simp] theorem setArena_arena (s : State) (m : Memory) : (s.setArena m).arena = m := rfl
@[simp] theorem setArena_traps (s : State) (m : Memory) : (s.setArena m).traps = s.traps := rfl
@[simp] theorem setArena_cfault (s : State) (m : Memory) : (s.setArena m).cfault = s.cfault := rfl
@[simp] theorem setArena_history (s : State) (m : Memory) : (s.setArena m).history = s.history := rfl
@[simp] theorem setArena_response (s : State) (m : Memory) : (s.setArena m).response = s.response := rfl
@[simp] theorem setArena_inProgress (s : State) (m : Memory) : (s.setArena m).inProgress = s.inProgress := rfl
@[simp] theorem setArena_stepIssued (s : State) (m : Memory) : (s.setArena m).stepIssued = s.stepIssued := rfl
@[simp] theorem setArena_engine (s : State) (m : Memory) : (s.setArena m).engine = s.engine := rfl
@[simp] theorem setArena_inputs (s : State) (m : Memory) : (s.setArena m).inputs = s.inputs := rfl
@[simp] theorem setArena_answers (s : State) (m : Memory) : (s.setArena m).answers = s.answers := rfl
@[simp] theorem setArena_drawn (s : State) (m : Memory) : (s.setArena m).drawn = s.drawn := rfl

/-! ### makeCall -/

@[simp] theorem makeCall_params (s : State) (c : Call) : (s.makeCall c).params = s.params := by
  cases c <;> rfl
@[simp] theorem makeCall_life (s : State) (c : Call) : (s.makeCall c).life = s.life := by
  cases c <;> rfl
@[simp] theorem makeCall_a20 (s : State) (c : Call) : (s.makeCall c).a20 = s.a20 := by
  cases c <;> rfl
@[simp] theorem makeCall_running (s : State) (c : Call) : (s.makeCall c).running = s.running := by
  cases c <;> rfl
@[simp] theorem makeCall_arena (s : State) (c : Call) : (s.makeCall c).arena = s.arena := by
  cases c <;> rfl
@[simp] theorem makeCall_cfault (s : State) (c : Call) : (s.makeCall c).cfault = s.cfault := by
  cases c <;> rfl
@[simp] theorem makeCall_history (s : State) (c : Call) : (s.makeCall c).history = s.history ++ [c.event] := by
  cases c <;> rfl
@[simp] theorem makeCall_response (s : State) (c : Call) : (s.makeCall c).response = s.response := by
  cases c <;> rfl
@[simp] theorem makeCall_inProgress (s : State) (c : Call) : (s.makeCall c).inProgress = s.inProgress := by
  cases c <;> rfl
@[simp] theorem makeCall_stepIssued (s : State) (c : Call) : (s.makeCall c).stepIssued = s.stepIssued := by
  cases c <;> rfl
@[simp] theorem makeCall_inputs (s : State) (c : Call) : (s.makeCall c).inputs = s.inputs := by
  cases c <;> rfl
@[simp] theorem makeCall_answers (s : State) (c : Call) : (s.makeCall c).answers = s.answers.drop c.answers := by
  cases c <;> rfl
@[simp] theorem makeCall_drawn (s : State) (c : Call) : (s.makeCall c).drawn = s.drawn + (c.answers - s.answers.length) := by
  cases c <;> rfl
@[simp] theorem makeCall_engine_isSome (s : State) (c : Call) (h : s.engine.isSome = true) :
    (s.makeCall c).engine.isSome = true := by
  cases c <;> first | rfl | exact h | simpa [makeCall, callEffect] using h
@[simp] theorem makeCall_enableInterrupts_traps (s : State) :
    (s.makeCall .enableInterrupts).traps = [(s.params.debugBopId.toNat, .debugBreak)] := rfl
theorem makeCall_traps (s : State) {c : Call} (h : c ≠ .enableInterrupts) :
    (s.makeCall c).traps = s.traps := by
  cases c <;> first | rfl | exact absurd rfl h

@[simp] theorem makeCall_deviceInit_engine (s : State) (d : Device) : (s.makeCall (.deviceInit d)).engine = s.engine := rfl
@[simp] theorem makeCall_deviceInit_traps (s : State) (d : Device) : (s.makeCall (.deviceInit d)).traps = s.traps := rfl
@[simp] theorem makeCall_inputInit_engine (s : State) (x y : Word) : (s.makeCall (.inputInit x y)).engine = s.engine := rfl
@[simp] theorem makeCall_inputInit_traps (s : State) (x y : Word) : (s.makeCall (.inputInit x y)).traps = s.traps := rfl
@[simp] theorem makeCall_deviceCleanup_engine (s : State) (d : Device) : (s.makeCall (.deviceCleanup d)).engine = s.engine := rfl
@[simp] theorem makeCall_deviceCleanup_traps (s : State) (d : Device) : (s.makeCall (.deviceCleanup d)).traps = s.traps := rfl
@[simp] theorem makeCall_engineConstruct_engine (s : State) :
    (s.makeCall .engineConstruct).engine = some s.constructedEngine := rfl
@[simp] theorem makeCall_engineConstruct_traps (s : State) :
    (s.makeCall .engineConstruct).traps = s.traps := rfl
@[simp] theorem makeCall_enableInterrupts_engine (s : State) :
    (s.makeCall .enableInterrupts).engine =
      s.engine.map fun e => { e with interruptEnable := true } := rfl

/-! ### finishInit -/

@[simp] theorem finishInit_params (s : State) : s.finishInit.params = s.params := rfl
@[simp] theorem finishInit_life (s : State) : s.finishInit.life = .ready := rfl
@[simp] theorem finishInit_a20 (s : State) : s.finishInit.a20 = s.a20 := rfl
@[simp] theorem finishInit_running (s : State) : s.finishInit.running = true := rfl
@[simp] theorem finishInit_arena (s : State) : s.finishInit.arena = s.arena := rfl
@[simp] theorem finishInit_traps (s : State) : s.finishInit.traps = s.traps := rfl
@[simp] theorem finishInit_cfault (s : State) : s.finishInit.cfault = s.cfault := rfl
@[simp] theorem finishInit_history (s : State) : s.finishInit.history = s.history := rfl
@[simp] theorem finishInit_response (s : State) : s.finishInit.response = { ok := some true } := rfl
@[simp] theorem finishInit_inProgress (s : State) : s.finishInit.inProgress = s.inProgress := rfl
@[simp] theorem finishInit_stepIssued (s : State) : s.finishInit.stepIssued = s.stepIssued := rfl
@[simp] theorem finishInit_engine (s : State) : s.finishInit.engine = s.engine := rfl
@[simp] theorem finishInit_inputs (s : State) : s.finishInit.inputs = s.inputs := rfl
@[simp] theorem finishInit_answers (s : State) : s.finishInit.answers = s.answers := rfl
@[simp] theorem finishInit_drawn (s : State) : s.finishInit.drawn = s.drawn := rfl

/-! ### finishCleanup -/

@[simp] theorem finishCleanup_params (s : State) : s.finishCleanup.params = s.params := rfl
@[simp] theorem finishCleanup_life (s : State) : s.finishCleanup.life = .released := rfl
@[simp] theorem finishCleanup_a20 (s : State) : s.finishCleanup.a20 = s.a20 := rfl
@[simp] theorem finishCleanup_running (s : State) : s.finishCleanup.running = s.running := rfl
@[simp] theorem finishCleanup_arena (s : State) : s.finishCleanup.arena = [] := rfl
@[simp] theorem finishCleanup_traps (s : State) : s.finishCleanup.traps = s.traps := rfl
@[simp] theorem finishCleanup_cfault (s : State) : s.finishCleanup.cfault = s.cfault := rfl
@[simp] theorem finishCleanup_history (s : State) : s.finishCleanup.history = s.history := rfl
@[simp] theorem finishCleanup_response (s : State) : s.finishCleanup.response = {} := rfl
@[simp] theorem finishCleanup_inProgress (s : State) : s.finishCleanup.inProgress = s.inProgress := rfl
@[simp] theorem finishCleanup_stepIssued (s : State) : s.finishCleanup.stepIssued = s.stepIssued := rfl
@[simp] theorem finishCleanup_engine (s : State) : s.finishCleanup.engine = s.engine := rfl
@[simp] theorem finishCleanup_inputs (s : State) : s.finishCleanup.inputs = s.inputs := rfl
@[simp] theorem finishCleanup_answers (s : State) : s.finishCleanup.answers = s.answers := rfl
@[simp] theorem finishCleanup_drawn (s : State) : s.finishCleanup.drawn = s.drawn := rfl

end Sys2Proof.Machine.State
end

