-- ==== Sys2Proof/Laws/Ops.lean ====
section
/-! SUPPORT. What each shared operation can do, said once. -/

namespace Sys2Proof.Machine

namespace State

/-! ## The gates -/

theorem whenServed_served {s : State} (h : s.cfault = none) (body : State → Result) :
    s.whenServed body = body s := by simp [whenServed, h]

theorem whenServed_faulted {s : State} (h : s.cfault ≠ none) (body : State → Result) :
    s.whenServed body = .next (s.respond {}) := by
  simp [whenServed, Option.isSome_iff_ne_none.2 h]

/-- Of two reasons raised, the first is recorded (R163). -/
@[simp] theorem raise_raise (s : State) (r r' : ContractFault) :
    (s.raise r).raise r' = s.raise r := by
  cases h : s.cfault <;> simp [raise, noteFault, respond, h]

theorem foldl_raise (s : State) (r : ContractFault) (failed : List (Bool × ContractFault)) :
    failed.foldl (fun u c => u.raise c.2) (s.raise r) = s.raise r := by
  induction failed with
  | nil => rfl
  | cons c cs ih => rw [List.foldl_cons, raise_raise, ih]

section Met
variable {s : State} {checks : List (Bool × ContractFault)} {body : State → Result}

theorem whenMet_faulted (h : s.cfault ≠ none) (checks : List (Bool × ContractFault))
    (body : State → Result) : s.whenMet checks body = .next (s.respond {}) :=
  whenServed_faulted h _

theorem whenMet_nil (h : s.cfault = none) (body : State → Result) : s.whenMet [] body = body s :=
  whenServed_served h _

/-- A check that holds is passed. -/
theorem whenMet_holds {b : Bool} (hb : b = true) (r : ContractFault)
    (checks : List (Bool × ContractFault)) (body : State → Result) :
    s.whenMet ((b, r) :: checks) body = s.whenMet checks body := by
  subst hb; rfl

/-- The first check that fails gives the reason. -/
theorem whenMet_fails (h : s.cfault = none) {b : Bool} (hb : b = false) (r : ContractFault)
    (checks : List (Bool × ContractFault)) (body : State → Result) :
    s.whenMet ((b, r) :: checks) body = .next (s.raise r) := by
  subst hb
  rw [whenMet, whenServed_served h]
  exact congrArg _ (foldl_raise s r _)

/-- Everything a command with checks can do. -/
theorem whenMet_cases {o : Result} (h : s.whenMet checks body = o) :
    (s.cfault ≠ none ∧ o = .next (s.respond {})) ∨
    (s.cfault = none ∧ ∃ c ∈ checks, c.1 = false ∧ o = .next (s.raise c.2)) ∨
    (s.cfault = none ∧ (∀ c ∈ checks, c.1 = true) ∧ o = body s) := by
  by_cases hc : s.cfault = none
  · refine .inr ?_
    induction checks with
    | nil => exact .inr ⟨hc, by simp, by rw [← h, whenMet_nil hc]⟩
    | cons c cs ih =>
      obtain ⟨b, r⟩ := c
      cases b with
      | false => exact .inl ⟨hc, _, List.mem_cons_self .., rfl, by rw [← h, whenMet_fails hc rfl]⟩
      | true =>
        rw [whenMet_holds rfl] at h
        rcases ih h with ⟨-, c, hm, hb⟩ | ⟨-, ha, hb⟩
        · exact .inl ⟨hc, c, List.mem_cons_of_mem _ hm, hb⟩
        · exact .inr ⟨hc, by simpa using ha, hb⟩
  · exact .inl ⟨hc, by rw [← h, whenMet_faulted hc]⟩

end Met

theorem whenReady_ready {s : State} (h : s.Ready) (body : State → Result) :
    s.whenReady body = body s := by
  rw [whenReady, whenMet_holds (by simp [h.1]), whenMet_nil h.2]

theorem whenReady_notReady {s : State} (h : s.cfault = none) (hl : s.life ≠ .ready)
    (body : State → Result) : s.whenReady body = .next (s.raise .notReady) :=
  whenMet_fails h (by simp [hl]) _ _ _

theorem whenReady_faulted {s : State} (h : s.cfault ≠ none) (body : State → Result) :
    s.whenReady body = .next (s.respond {}) := whenMet_faulted h _ _

/-- Everything a command gated on READY can do. -/
theorem whenReady_cases {s : State} {body : State → Result} {o : Result}
    (h : s.whenReady body = o) :
    (s.cfault ≠ none ∧ o = .next (s.respond {})) ∨
    (s.cfault = none ∧ s.life ≠ .ready ∧ o = .next (s.raise .notReady)) ∨
    (s.Ready ∧ o = body s) := by
  by_cases hc : s.cfault = none
  · by_cases hl : s.life = .ready
    · exact .inr (.inr ⟨⟨hl, hc⟩, by rw [← h, whenReady_ready ⟨hl, hc⟩]⟩)
    · exact .inr (.inl ⟨hc, hl, by rw [← h, whenReady_notReady hc hl]⟩)
  · exact .inl ⟨hc, by rw [← h, whenReady_faulted hc]⟩

/-! ## External answers -/

@[simp] theorem length_answerBytes (s : State) (n : Nat) : (s.answerBytes n).length = n := by
  simp [answerBytes]

@[simp] theorem getElem_answerBytes (s : State) (n k : Nat) (h : k < (s.answerBytes n).length) :
    (s.answerBytes n)[k] = (s.answerAt k).byte := by simp [answerBytes]

/-- Answers are given in order: after `n` of them the `k`-th is the one that was `n + k`-th. -/
theorem answerAt_congr {s t : State} {n : Nat} (ha : t.answers = s.answers.drop n)
    (hd : t.drawn = s.drawn + (n - s.answers.length)) (k : Nat) :
    t.answerAt k = s.answerAt (n + k) := by
  unfold answerAt
  rw [ha, hd]
  simp only [List.getElem?_drop, List.length_drop]
  cases h : s.answers[n + k]? with
  | some a => rfl
  | none =>
    have hlen : s.answers.length ≤ n + k := List.getElem?_eq_none_iff.1 h
    simp only [show s.drawn + (n - s.answers.length) + (k - (s.answers.length - n)) =
      s.drawn + (n + k - s.answers.length) by omega]

@[simp] theorem answerAt_callReentrantFree (s : State) (n k : Nat) :
    (s.callReentrantFree n).answerAt k = s.answerAt (n + k) :=
  answerAt_congr (by simp) (by simp) k

@[simp] theorem answerAt_consume (s : State) (n k : Nat) :
    (s.consume n).answerAt k = s.answerAt (n + k) :=
  answerAt_congr (by simp) (by simp) k

@[simp] theorem answerAt_record (s : State) (e : Event) (k : Nat) :
    (s.record e).answerAt k = s.answerAt k := rfl

@[simp] theorem answerAt_recordAll (s : State) (es : List Event) (k : Nat) :
    (s.recordAll es).answerAt k = s.answerAt k := rfl

@[simp] theorem answerAt_setArena (s : State) (m : Memory) (k : Nat) :
    (s.setArena m).answerAt k = s.answerAt k := rfl

@[simp] theorem answerAt_queryVideo (s : State) (k : Nat) :
    s.queryVideo.answerAt k = s.answerAt (2 + k) := by simp [queryVideo]

theorem calledBack_iff (s : State) (n : Nat) :
    s.calledBack n = true ↔ ∃ k < n, (s.answerAt k).callsBack = true := by
  simp [calledBack]

@[simp] theorem calledBack_record (s : State) (e : Event) (n : Nat) :
    (s.record e).calledBack n = s.calledBack n := rfl

@[simp] theorem calledBack_recordAll (s : State) (es : List Event) (n : Nat) :
    (s.recordAll es).calledBack n = s.calledBack n := rfl

/-- Recording an event and taking answers do not meet. -/
theorem callReentrantFree_record (s : State) (e : Event) (n : Nat) :
    (s.record e).callReentrantFree n = (s.callReentrantFree n).record e := by
  ext1 <;> simp

/-- Two calls one after the other are one call that takes all their answers. -/
theorem callReentrantFree_add (s : State) (n m : Nat) :
    (s.callReentrantFree n).callReentrantFree m = s.callReentrantFree (n + m) := by
  have h : s.calledBack (n + m) = (s.calledBack n || (s.callReentrantFree n).calledBack m) := by
    rw [Bool.eq_iff_iff, Bool.or_eq_true]
    simp only [calledBack_iff, answerAt_callReentrantFree]
    constructor
    · rintro ⟨k, hk, hc⟩
      by_cases hn : k < n
      · exact .inl ⟨k, hn, hc⟩
      · exact .inr ⟨k - n, by omega, by rwa [show n + (k - n) = k by omega]⟩
    · rintro (⟨k, hk, hc⟩ | ⟨k, hk, hc⟩)
      · exact ⟨k, by omega, hc⟩
      · exact ⟨n + k, by omega, hc⟩
  ext1 <;> simp only [callReentrantFree_params, callReentrantFree_life, callReentrantFree_a20,
    callReentrantFree_running, callReentrantFree_arena, callReentrantFree_traps,
    callReentrantFree_history, callReentrantFree_response, callReentrantFree_inProgress,
    callReentrantFree_stepIssued, callReentrantFree_engine, callReentrantFree_inputs,
    callReentrantFree_answers, callReentrantFree_drawn, callReentrantFree_cfault, List.drop_drop,
    List.length_drop]
  · rw [h]
    cases s.calledBack n <;> cases (s.callReentrantFree n).calledBack m <;> cases s.cfault <;> rfl
  · omega

/-! ## The arena's accesses -/

theorem copyOut_ok {s : State} {a n : Nat} (h : s.inArena a n) :
    s.copyOut a n = .ok (s.arena.readBytes a n) := if_pos h

theorem copyIn_ok {s : State} {a : Nat} {bytes : List Byte} (h : s.inArena a bytes.length) :
    s.copyIn a bytes = .ok (s.setArena (s.arena.writeBytes a bytes)) := if_pos h

/-! ## The access pipeline -/

/-- The intersection of a request's range with another range lies in the request's range. -/
theorem isect_within (a n : Nat) (q : Range) (h : ((requestRange a n).isect q).nonempty) :
    a ≤ ((requestRange a n).isect q).lo ∧
    ((requestRange a n).isect q).lo + ((requestRange a n).isect q).size =
      ((requestRange a n).isect q).hi ∧
    ((requestRange a n).isect q).hi ≤ a + n := by
  simp only [Range.nonempty, Range.isect, requestRange, Range.size] at *
  omega

/-- The state a read leaves before it answers: the bounds are sampled and the device has filled its
portion of the arena. -/
def afterFill (s : State) (i : Range) : State :=
  if i.nonempty then
    ((s.queryVideo.record (.deviceRead i.lo i.size (s.queryVideo.answerBytes i.size))
      ).callReentrantFree i.size).setArena
        (s.arena.writeBytes i.lo (s.queryVideo.answerBytes i.size))
  else s.queryVideo

/-- The state a write leaves before the device hears of it. -/
def afterStore (s : State) (a : Nat) (payload : List Byte) : State :=
  s.queryVideo.setArena (s.arena.writeBytes a payload)

@[simp] theorem queryVideo_arena (s : State) : s.queryVideo.arena = s.arena := by
  simp [queryVideo]

@[simp] theorem queryVideo_params (s : State) : s.queryVideo.params = s.params := by
  simp [queryVideo]

@[simp] theorem afterFill_arena (s : State) (i : Range) :
    (s.afterFill i).arena =
      if i.nonempty then s.arena.writeBytes i.lo (s.queryVideo.answerBytes i.size)
      else s.arena := by
  unfold afterFill; split <;> simp

@[simp] theorem afterFill_params (s : State) (i : Range) :
    (s.afterFill i).params = s.params := by
  unfold afterFill; split <;> simp

/-- The device's fill of a range that ends inside the arena succeeds. -/
theorem deviceFill_eq {s : State} {i : Range} (h : i.hi ≤ s.params.maxAddress) :
    s.queryVideo.deviceFill i = .ok (s.afterFill i) := by
  unfold deviceFill afterFill
  split
  · rename_i hi
    simp only
    rw [copyIn_ok]
    · simp
    · right
      simp only [length_answerBytes, callReentrantFree_params, record_params, queryVideo_params]
      simp only [Range.nonempty, Range.size] at *
      omega
  · rfl

/-- A read whose range lies below `MAX_ADDRESS` completes, with the bytes of the filled arena. -/
theorem readThrough_eq {s : State} {a n : Nat} (h : a + n < s.params.maxAddress) :
    s.readThrough a n =
      .next ((s.afterFill ((requestRange a n).isect s.videoRange)).respond
        { rdata := some <|
            (s.afterFill ((requestRange a n).isect s.videoRange)).arena.readBytes a n }) := by
  unfold readThrough
  simp only
  rw [deviceFill_eq (by simp only [Range.isect, requestRange]; omega)]
  simp only [orFault]
  rw [copyOut_ok (by right; simp only [afterFill_params]; omega)]

/-- The state after a read's device calls, in one piece. -/
theorem afterFill_eq (s : State) (i : Range) :
    s.afterFill i =
      (((s.recordAll [.videoBase (s.answerAt 0).value, .videoLimit (s.answerAt 1).value]
        ).callReentrantFree (2 + i.size)).recordAll
          (if i.nonempty then
            [.deviceRead i.lo i.size ((List.range i.size).map fun k => (s.answerAt (2 + k)).byte)]
          else [])).setArena
        (if i.nonempty then
          s.arena.writeBytes i.lo ((List.range i.size).map fun k => (s.answerAt (2 + k)).byte)
        else s.arena) := by
  have hb : s.queryVideo.answerBytes i.size =
      (List.range i.size).map fun k => (s.answerAt (2 + k)).byte := by simp [answerBytes]
  unfold afterFill
  split
  · rw [hb, callReentrantFree_record, queryVideo, callReentrantFree_add]
    rfl
  · rename_i h
    have hz : i.size = 0 := by simp only [Range.nonempty, Range.size] at *; omega
    rw [hz, queryVideo]
    ext1 <;> simp

/-- The state after a write's device calls, in one piece. -/
theorem deviceForward_eq (s : State) (a : Nat) (payload : List Byte) (i : Range) :
    (s.afterStore a payload).deviceForward a payload i =
      (((s.recordAll [.videoBase (s.answerAt 0).value, .videoLimit (s.answerAt 1).value]
        ).callReentrantFree (if i.nonempty then 3 else 2)).recordAll
          (if i.nonempty then [.deviceWrite i.lo (payloadPart a payload i) i.size] else [])).setArena
        (s.arena.writeBytes a payload) := by
  unfold deviceForward afterStore
  split
  · have h : ∀ (x : State) (m : Memory) (e : Event),
        ((x.setArena m).record e).callReentrantFree 1 =
          ((x.callReentrantFree 1).record e).setArena m := by
      intro x m e
      ext1 <;> simp
      rfl
    rw [h, queryVideo, callReentrantFree_add]
    rfl
  · rw [queryVideo]
    ext1 <;> simp

/-- A write whose range lies below `MAX_ADDRESS` completes, and then tells the device. -/
theorem writeThrough_eq {s : State} {a n : Nat} {payload : List Byte} (hp : payload.length = n)
    (h : a + n < s.params.maxAddress) :
    s.writeThrough a n payload =
      .next (((s.afterStore a payload).deviceForward a payload
        ((requestRange a n).isect s.videoRange)).respond {}) := by
  unfold writeThrough afterStore
  simp only
  rw [copyIn_ok (by right; simp only [queryVideo_params]; omega)]
  simp [orFault]

@[simp] theorem deviceForward_arena (s : State) (a : Nat) (payload : List Byte) (i : Range) :
    (s.deviceForward a payload i).arena = s.arena := by
  unfold deviceForward; split <;> simp

/-! ## The fields an access leaves -/

@[simp] theorem afterStore_params (s : State) (a : Nat) (payload : List Byte) :
    (s.afterStore a payload).params = s.params := by simp [afterStore, queryVideo]
@[simp] theorem deviceForward_params (s : State) (a : Nat) (payload : List Byte) (i : Range) :
    (s.deviceForward a payload i).params = s.params := by unfold deviceForward; split <;> simp
@[simp] theorem afterStore_life (s : State) (a : Nat) (payload : List Byte) :
    (s.afterStore a payload).life = s.life := by simp [afterStore, queryVideo]
@[simp] theorem deviceForward_life (s : State) (a : Nat) (payload : List Byte) (i : Range) :
    (s.deviceForward a payload i).life = s.life := by unfold deviceForward; split <;> simp
@[simp] theorem afterFill_life (s : State) (i : Range) : (s.afterFill i).life = s.life := by
  simp [afterFill_eq]
@[simp] theorem afterStore_a20 (s : State) (a : Nat) (payload : List Byte) :
    (s.afterStore a payload).a20 = s.a20 := by simp [afterStore, queryVideo]
@[simp] theorem deviceForward_a20 (s : State) (a : Nat) (payload : List Byte) (i : Range) :
    (s.deviceForward a payload i).a20 = s.a20 := by unfold deviceForward; split <;> simp
@[simp] theorem afterFill_a20 (s : State) (i : Range) : (s.afterFill i).a20 = s.a20 := by
  simp [afterFill_eq]
@[simp] theorem afterStore_running (s : State) (a : Nat) (payload : List Byte) :
    (s.afterStore a payload).running = s.running := by simp [afterStore, queryVideo]
@[simp] theorem deviceForward_running (s : State) (a : Nat) (payload : List Byte) (i : Range) :
    (s.deviceForward a payload i).running = s.running := by unfold deviceForward; split <;> simp
@[simp] theorem afterFill_running (s : State) (i : Range) : (s.afterFill i).running = s.running := by
  simp [afterFill_eq]
@[simp] theorem afterStore_traps (s : State) (a : Nat) (payload : List Byte) :
    (s.afterStore a payload).traps = s.traps := by simp [afterStore, queryVideo]
@[simp] theorem deviceForward_traps (s : State) (a : Nat) (payload : List Byte) (i : Range) :
    (s.deviceForward a payload i).traps = s.traps := by unfold deviceForward; split <;> simp
@[simp] theorem afterFill_traps (s : State) (i : Range) : (s.afterFill i).traps = s.traps := by
  simp [afterFill_eq]
@[simp] theorem afterStore_inProgress (s : State) (a : Nat) (payload : List Byte) :
    (s.afterStore a payload).inProgress = s.inProgress := by simp [afterStore, queryVideo]
@[simp] theorem deviceForward_inProgress (s : State) (a : Nat) (payload : List Byte) (i : Range) :
    (s.deviceForward a payload i).inProgress = s.inProgress := by unfold deviceForward; split <;> simp
@[simp] theorem afterFill_inProgress (s : State) (i : Range) : (s.afterFill i).inProgress = s.inProgress := by
  simp [afterFill_eq]
@[simp] theorem afterStore_stepIssued (s : State) (a : Nat) (payload : List Byte) :
    (s.afterStore a payload).stepIssued = s.stepIssued := by simp [afterStore, queryVideo]
@[simp] theorem deviceForward_stepIssued (s : State) (a : Nat) (payload : List Byte) (i : Range) :
    (s.deviceForward a payload i).stepIssued = s.stepIssued := by unfold deviceForward; split <;> simp
@[simp] theorem afterFill_stepIssued (s : State) (i : Range) : (s.afterFill i).stepIssued = s.stepIssued := by
  simp [afterFill_eq]
@[simp] theorem afterStore_engine (s : State) (a : Nat) (payload : List Byte) :
    (s.afterStore a payload).engine = s.engine := by simp [afterStore, queryVideo]
@[simp] theorem deviceForward_engine (s : State) (a : Nat) (payload : List Byte) (i : Range) :
    (s.deviceForward a payload i).engine = s.engine := by unfold deviceForward; split <;> simp
@[simp] theorem afterFill_engine (s : State) (i : Range) : (s.afterFill i).engine = s.engine := by
  simp [afterFill_eq]
@[simp] theorem afterStore_inputs (s : State) (a : Nat) (payload : List Byte) :
    (s.afterStore a payload).inputs = s.inputs := by simp [afterStore, queryVideo]
@[simp] theorem deviceForward_inputs (s : State) (a : Nat) (payload : List Byte) (i : Range) :
    (s.deviceForward a payload i).inputs = s.inputs := by unfold deviceForward; split <;> simp
@[simp] theorem afterFill_inputs (s : State) (i : Range) : (s.afterFill i).inputs = s.inputs := by
  simp [afterFill_eq]
@[simp] theorem afterStore_arena (s : State) (a : Nat) (payload : List Byte) :
    (s.afterStore a payload).arena = s.arena.writeBytes a payload := rfl

/-! ## The calls of INIT and CLEANUP -/

/-- Where `runCalls` ends: after the last call, or at a call from inside which the agent issues commands. -/
theorem runCalls_cases (frame : List Call → Activity) (finish : State → State) (cs : List Call)
    (s : State) :
    runCalls frame finish cs s = finish (cs.foldl makeCall s) ∨
    ∃ before c left, cs = before ++ c :: left ∧
      runCalls frame finish cs s = ((before.foldl makeCall s).makeCall c).begin (frame left) := by
  induction cs generalizing s with
  | nil => exact .inl rfl
  | cons c cs ih =>
    by_cases h : s.calledBack c.answers = true
    · exact .inr ⟨[], c, cs, rfl, by simp [runCalls, h]⟩
    · simp only [runCalls, h, if_false, List.foldl_cons, Bool.false_eq_true]
      rcases ih (s.makeCall c) with e | ⟨before, d, left, rfl, e⟩
      · exact .inl e
      · exact .inr ⟨c :: before, d, left, rfl, e⟩

@[simp] theorem answerAt_makeCall (s : State) (c : Call) (k : Nat) :
    (s.makeCall c).answerAt k = s.answerAt (c.answers + k) :=
  answerAt_congr (by simp) (by simp) k

/-- Where no agent issues a command, every call is made and the command ends. -/
theorem runCalls_quiet (frame : List Call → Activity) (finish : State → State) (cs : List Call)
    (s : State) (h : ∀ k < (cs.map Call.answers).sum, (s.answerAt k).callsBack = false) :
    runCalls frame finish cs s = finish (cs.foldl makeCall s) := by
  induction cs generalizing s with
  | nil => rfl
  | cons c cs ih =>
    simp only [List.map_cons, List.sum_cons] at h
    have hc : ¬ s.calledBack c.answers = true := by
      rw [calledBack_iff]
      rintro ⟨k, hk, e⟩
      rw [h k (by omega)] at e
      cases e
    simp only [runCalls, hc, Bool.false_eq_true, if_false, List.foldl_cons]
    refine ih _ fun k hk => ?_
    rw [answerAt_makeCall]
    exact h _ (by omega)

/-- A field that no call writes, and the command's end does not write, is as before. -/
theorem runCalls_keeps {α : Type} (f : State → α) {frame : List Call → Activity}
    {finish : State → State} (hb : ∀ s act, f (s.begin act) = f s) (hc : ∀ s c, f (s.makeCall c) = f s)
    (hf : ∀ s, f (finish s) = f s) (cs : List Call) (s : State) :
    f (runCalls frame finish cs s) = f s := by
  induction cs generalizing s with
  | nil => exact hf s
  | cons c cs ih =>
    simp only [runCalls]
    split
    · rw [hb, hc]
    · rw [ih, hc]

@[simp] theorem runInit_params (s : State) (cs : List Call) : (s.runInit cs).params = s.params :=
  runCalls_keeps params begin_params makeCall_params finishInit_params cs s
@[simp] theorem runInit_a20 (s : State) (cs : List Call) : (s.runInit cs).a20 = s.a20 :=
  runCalls_keeps a20 begin_a20 makeCall_a20 finishInit_a20 cs s
@[simp] theorem runInit_arena (s : State) (cs : List Call) : (s.runInit cs).arena = s.arena :=
  runCalls_keeps arena begin_arena makeCall_arena finishInit_arena cs s
@[simp] theorem runInit_cfault (s : State) (cs : List Call) : (s.runInit cs).cfault = s.cfault :=
  runCalls_keeps cfault begin_cfault makeCall_cfault finishInit_cfault cs s
@[simp] theorem runInit_inputs (s : State) (cs : List Call) : (s.runInit cs).inputs = s.inputs :=
  runCalls_keeps inputs begin_inputs makeCall_inputs finishInit_inputs cs s
@[simp] theorem runInit_stepIssued (s : State) (cs : List Call) : (s.runInit cs).stepIssued = s.stepIssued :=
  runCalls_keeps stepIssued begin_stepIssued makeCall_stepIssued finishInit_stepIssued cs s
@[simp] theorem runCleanup_params (s : State) (cs : List Call) : (s.runCleanup cs).params = s.params :=
  runCalls_keeps params begin_params makeCall_params finishCleanup_params cs s
@[simp] theorem runCleanup_a20 (s : State) (cs : List Call) : (s.runCleanup cs).a20 = s.a20 :=
  runCalls_keeps a20 begin_a20 makeCall_a20 finishCleanup_a20 cs s
@[simp] theorem runCleanup_running (s : State) (cs : List Call) : (s.runCleanup cs).running = s.running :=
  runCalls_keeps running begin_running makeCall_running finishCleanup_running cs s
@[simp] theorem runCleanup_cfault (s : State) (cs : List Call) : (s.runCleanup cs).cfault = s.cfault :=
  runCalls_keeps cfault begin_cfault makeCall_cfault finishCleanup_cfault cs s
@[simp] theorem runCleanup_inputs (s : State) (cs : List Call) : (s.runCleanup cs).inputs = s.inputs :=
  runCalls_keeps inputs begin_inputs makeCall_inputs finishCleanup_inputs cs s
@[simp] theorem runCleanup_stepIssued (s : State) (cs : List Call) : (s.runCleanup cs).stepIssued = s.stepIssued :=
  runCalls_keeps stepIssued begin_stepIssued makeCall_stepIssued finishCleanup_stepIssued cs s

/-- Calls are recorded in their order. -/
@[simp] theorem foldl_makeCall_history (cs : List Call) (s : State) :
    (cs.foldl makeCall s).history = s.history ++ cs.map Call.event := by
  induction cs generalizing s with
  | nil => simp
  | cons c cs ih => simp [ih]

/-- Calls, completed or not, only append to the history. -/
theorem runCalls_history {frame : List Call → Activity} {finish : State → State}
    (hf : ∀ s, (finish s).history = s.history) (cs : List Call) (s : State) :
    ∃ es, (runCalls frame finish cs s).history = s.history ++ es := by
  rcases runCalls_cases frame finish cs s with e | ⟨before, c, left, -, e⟩
  · exact ⟨_, by rw [e, hf, foldl_makeCall_history]⟩
  · exact ⟨before.map Call.event ++ [c.event], by simp [e]⟩

/-- A field that no call writes is as before after any calls. -/
theorem foldl_makeCall_keeps {α : Type} (f : State → α) (hc : ∀ s c, f (s.makeCall c) = f s)
    (cs : List Call) (s : State) : f (cs.foldl makeCall s) = f s := by
  induction cs generalizing s with
  | nil => rfl
  | cons c cs ih => exact (ih _).trans (hc s c)

@[simp] theorem foldl_makeCall_params (cs : List Call) (s : State) :
    (cs.foldl makeCall s).params = s.params := foldl_makeCall_keeps params makeCall_params cs s
@[simp] theorem foldl_makeCall_life (cs : List Call) (s : State) :
    (cs.foldl makeCall s).life = s.life := foldl_makeCall_keeps life makeCall_life cs s
@[simp] theorem foldl_makeCall_a20 (cs : List Call) (s : State) :
    (cs.foldl makeCall s).a20 = s.a20 := foldl_makeCall_keeps a20 makeCall_a20 cs s
@[simp] theorem foldl_makeCall_running (cs : List Call) (s : State) :
    (cs.foldl makeCall s).running = s.running := foldl_makeCall_keeps running makeCall_running cs s
@[simp] theorem foldl_makeCall_arena (cs : List Call) (s : State) :
    (cs.foldl makeCall s).arena = s.arena := foldl_makeCall_keeps arena makeCall_arena cs s
@[simp] theorem foldl_makeCall_cfault (cs : List Call) (s : State) :
    (cs.foldl makeCall s).cfault = s.cfault := foldl_makeCall_keeps cfault makeCall_cfault cs s
@[simp] theorem foldl_makeCall_inProgress (cs : List Call) (s : State) :
    (cs.foldl makeCall s).inProgress = s.inProgress := foldl_makeCall_keeps inProgress makeCall_inProgress cs s
@[simp] theorem foldl_makeCall_stepIssued (cs : List Call) (s : State) :
    (cs.foldl makeCall s).stepIssued = s.stepIssued := foldl_makeCall_keeps stepIssued makeCall_stepIssued cs s
@[simp] theorem foldl_makeCall_inputs (cs : List Call) (s : State) :
    (cs.foldl makeCall s).inputs = s.inputs := foldl_makeCall_keeps inputs makeCall_inputs cs s

/-- Calls leave an engine where there is one. -/
theorem foldl_makeCall_engine (cs : List Call) (s : State) (h : s.engine.isSome = true) :
    (cs.foldl makeCall s).engine.isSome = true := by
  induction cs generalizing s with
  | nil => exact h
  | cons c cs ih => exact ih _ (makeCall_engine_isSome s c h)

/-- Calls leave the trap table as it is, or with the debugger break alone. -/
theorem foldl_makeCall_traps (cs : List Call) (s : State) :
    ((cs.foldl makeCall s).traps = [(s.params.debugBopId.toNat, .debugBreak)] ∧
      .enableInterrupts ∈ cs) ∨
    ((cs.foldl makeCall s).traps = s.traps ∧ .enableInterrupts ∉ cs) := by
  induction cs generalizing s with
  | nil => simp
  | cons c cs ih =>
    by_cases hc : c = .enableInterrupts
    · subst hc
      rcases ih (s.makeCall .enableInterrupts) with h | h
      · exact .inl ⟨by simpa using h.1, by simp⟩
      · exact .inl ⟨by simpa using h.1, by simp⟩
    · rcases ih (s.makeCall c) with h | h
      · exact .inl ⟨by simpa using h.1, by simp [h.2]⟩
      · exact .inr ⟨by rw [List.foldl_cons, h.1, makeCall_traps s hc], by simp [h.2, Ne.symm hc]⟩

/-- When an agent returns, nothing does, or the innermost command in progress goes on. -/
theorem agentReturns_cases (s : State) :
    (s.inProgress = [] ∧ s.agentReturns = s) ∨
    ∃ act outer, s.inProgress = act :: outer ∧
      s.agentReturns = State.resume { s with inProgress := outer } act := by
  unfold agentReturns
  split
  · exact .inl ⟨‹_›, rfl⟩
  · exact .inr ⟨_, _, ‹_›, rfl⟩

@[simp] theorem resume_params (s : State) (act : Activity) : (s.resume act).params = s.params := by
  cases act <;> simp [resume]
@[simp] theorem agentReturns_params (s : State) : s.agentReturns.params = s.params := by
  rcases agentReturns_cases s with ⟨-, e⟩ | ⟨act, outer, -, e⟩ <;> simp [e]
@[simp] theorem resume_a20 (s : State) (act : Activity) : (s.resume act).a20 = s.a20 := by
  cases act <;> simp [resume]
@[simp] theorem agentReturns_a20 (s : State) : s.agentReturns.a20 = s.a20 := by
  rcases agentReturns_cases s with ⟨-, e⟩ | ⟨act, outer, -, e⟩ <;> simp [e]
@[simp] theorem resume_cfault (s : State) (act : Activity) : (s.resume act).cfault = s.cfault := by
  cases act <;> simp [resume]
@[simp] theorem agentReturns_cfault (s : State) : s.agentReturns.cfault = s.cfault := by
  rcases agentReturns_cases s with ⟨-, e⟩ | ⟨act, outer, -, e⟩ <;> simp [e]
@[simp] theorem resume_stepIssued (s : State) (act : Activity) : (s.resume act).stepIssued = s.stepIssued := by
  cases act <;> simp [resume]
@[simp] theorem agentReturns_stepIssued (s : State) : s.agentReturns.stepIssued = s.stepIssued := by
  rcases agentReturns_cases s with ⟨-, e⟩ | ⟨act, outer, -, e⟩ <;> simp [e]
@[simp] theorem resume_inputs (s : State) (act : Activity) : (s.resume act).inputs = s.inputs := by
  cases act <;> simp [resume]
@[simp] theorem agentReturns_inputs (s : State) : s.agentReturns.inputs = s.inputs := by
  rcases agentReturns_cases s with ⟨-, e⟩ | ⟨act, outer, -, e⟩ <;> simp [e]

/-! ## The image load -/

/-- The image load keeps the arena in canonical form and inside its bounds. -/
theorem writeImage_ok {s : State} (h : s.ArenaOk) (image : List Host.Cell) :
    (s.setArena (s.writeImage image)).ArenaOk := by
  have key : ∀ (l : List Host.Cell) (m : Memory),
      (m.wf ∧ ∀ c ∈ m, c.1 < s.params.maxAddress) →
      let m' : Memory :=
        l.foldl (fun m c => if c.1 < s.params.maxAddress then m.write c.1 c.2 else m) m
      m'.wf ∧ ∀ c ∈ m', c.1 < s.params.maxAddress := by
    intro l
    induction l with
    | nil => exact fun _ h => h
    | cons c l ih =>
      intro m hm
      apply ih
      by_cases hc : c.1 < s.params.maxAddress
      · simp only [if_pos hc]
        exact ⟨Memory.wf_write hm.1 _ _, fun d hd => (Memory.mem_write hd).elim
          (fun e => e ▸ hc) (hm.2 d)⟩
      · simpa only [if_neg hc] using hm
  exact key image s.arena h

/-! ## A20 masking -/

/-- With the gate clear, an address below 2^21 keeps its low 20 bits (R142). -/
theorem toNat_maskA20_clear {v : Nat} (h : v < 2 ^ 21) :
    (maskA20 false (BitVec.ofNat 32 v)).toNat = v % 2 ^ 20 := by
  have e : maskA20 false (BitVec.ofNat 32 v) = BitVec.ofNat 32 v &&& 0xFFFFF#32 := by
    ext i hi
    simp only [maskA20, Bool.false_eq_true, if_false, BitVec.getElem_and]
    by_cases hv : i < 21
    · have : ∀ i (h : i < 32), i < 21 → (~~~(1#32 <<< 20))[i] = (0xFFFFF#32)[i] := by decide
      rw [show (~~~((1 : Word) <<< 20))[i] = (0xFFFFF#32)[i] from this i hi hv]
    · have hz : (BitVec.ofNat 32 v)[i] = false := by
        rw [← BitVec.getLsbD_eq_getElem, BitVec.getLsbD_ofNat, Bool.and_eq_false_iff]
        right
        exact Nat.testBit_lt_two_pow (lt_of_lt_of_le h (Nat.pow_le_pow_right (by omega) (by omega)))
      rw [hz]; simp
  rw [e, BitVec.toNat_and, BitVec.toNat_ofNat, Nat.mod_eq_of_lt (by omega)]
  exact Nat.and_two_pow_sub_one_eq_mod v 20

/-- The bytes of a diagnostic fetch that lie in the arena are the first ones. -/
theorem filter_range_below (l m n : Nat) :
    ((List.range n).filter fun k => l + k < m) = List.range (min n (m - l)) := by
  induction n with
  | zero => simp
  | succ n ih =>
    rw [List.range_succ, List.filter_append, ih]
    by_cases h : l + n < m
    · rw [show min n (m - l) = n by omega, show min (n + 1) (m - l) = n + 1 by omega,
        List.range_succ]
      simp [h]
    · rw [show min (n + 1) (m - l) = min n (m - l) by omega]
      simp [h]

/-! ## Exceptions -/

/-- The diagnostic fetch never leaves the arena. -/
theorem diagFetch_eq (s : State) (cs ip : Half) :
    s.diagFetch cs ip =
      .ok (s.arena.readBytes (s.diagAddress cs ip) (s.diagLength cs ip)) := by
  apply copyOut_ok
  simp only [diagLength]
  omega

/-- Taking an exception always reports and halts. -/
theorem reportException_eq (s : State) (kind : ExcKind) (cs ip : Half) :
    s.reportException kind cs ip =
      .next ((((s.record (.report ⟨kind, cs, ip,
        s.arena.readBytes (s.diagAddress cs ip) (s.diagLength cs ip)⟩)).callReentrantFree
          1).halt).respond {}) := by
  simp [reportException, diagFetch_eq, orFault]

theorem excKind_eq_none_iff (n : Byte) : excKind n = none ↔ 8 ≤ n.toNat := by
  simp [excKind]

end State

end Sys2Proof.Machine
end

