-- ==== Sys2Proof/Laws/Exec.lean ====
section
/-! SUPPORT. What a command can do, said once: it is not served, it raises a contract fault, or it has its
effect; and the answer of each meaning where it is served. -/

namespace Sys2Proof.Machine

open State

/-! ## Each command where it is served -/

section Served
variable {s : State}

theorem exec_mread_dropped (hr : s.Ready) {a n : Word} (dst : List Byte)
    (h : s.dropped .read a n) :
    exec (.mread a n dst) s = .next (s.respond { rdata := some dst }) := by
  simp only [exec, execMread]; rw [whenReady_ready hr, if_pos h]

theorem exec_mread_served (hr : s.Ready) {a n : Word} (dst : List Byte)
    (h : ¬ s.dropped .read a n) :
    exec (.mread a n dst) s = s.readThrough (s.maskedAddress a) n.toNat := by
  simp only [exec, execMread]; rw [whenReady_ready hr, if_neg h]

theorem exec_mwrite_dropped (hr : s.Ready) {a n : Word} (payload : List Byte)
    (h : s.dropped .write a n) : exec (.mwrite a n payload) s = .next (s.respond {}) := by
  simp only [exec, execMwrite]; rw [whenReady_ready hr, if_pos h]

theorem exec_mwrite_served (hr : s.Ready) {a n : Word} (payload : List Byte)
    (h : ¬ s.dropped .write a n) :
    exec (.mwrite a n payload) s = s.writeThrough (s.maskedAddress a) n.toNat payload := by
  simp only [exec, execMwrite]; rw [whenReady_ready hr, if_neg h]

theorem exec_seta20_served (hr : s.Ready) (b : Bool) :
    exec (.seta20 b) s = .next ((s.setA20 b).respond {}) := by
  simp only [exec, execSeta20]; rw [whenReady_ready hr]

theorem exec_intack_served (hr : s.Ready) :
    exec .intack s = .next (((s.record (.picPendingVector (s.answerAt 0).byte)
      ).callReentrantFree 1).respond { vec := some (s.answerAt 0).byte }) := by
  simp only [exec, execIntack]; rw [whenReady_ready hr]

theorem exec_repexc_served (hr : s.Ready) {n : Byte} {kind : ExcKind} (cs ip : Half)
    (h : excKind n = some kind) :
    exec (.repexc n cs ip) s = .next ((((s.record (.report ⟨kind, cs, ip,
        s.arena.readBytes (s.diagAddress cs ip) (s.diagLength cs ip)⟩)).callReentrantFree
          1).halt).respond {}) := by
  simp only [exec, execRepexc]; rw [whenReady_ready hr, h]
  exact reportException_eq s kind cs ip

theorem exec_repexc_raises (hr : s.Ready) {n : Byte} (cs ip : Half) (h : excKind n = none) :
    exec (.repexc n cs ip) s = .next (s.raise .badExcNum) := by
  simp only [exec, execRepexc]; rw [whenReady_ready hr, h]

theorem exec_regbop_served (hr : s.Ready) (id : Byte) {h : Handle} (hh : h ∈ s.params.handlers) :
    exec (.regbop id h) s = .next ((s.setTrap id h).respond {}) := by
  simp only [exec, execRegbop]; rw [whenReady_ready hr, if_pos hh]

theorem exec_regbop_raises (hr : s.Ready) (id : Byte) {h : Handle} (hh : h ∉ s.params.handlers) :
    exec (.regbop id h) s = .next (s.raise .badHandle) := by
  simp only [exec, execRegbop]; rw [whenReady_ready hr, if_neg hh]

theorem exec_dispbop_host (hr : s.Ready) {id : Byte} (ctx : Word) {name : Nat}
    (h : s.trap id = some (.host name)) :
    exec (.dispbop id ctx) s =
      .next ((s.record (.handlerCall (.host name) ctx)).begin (.handler (.host name))) := by
  simp only [exec, execDispbop]; rw [whenReady_ready hr, h]

theorem exec_dispbop_debugBreak (hr : s.Ready) {id : Byte} (ctx : Word)
    (h : s.trap id = some .debugBreak) :
    exec (.dispbop id ctx) s = .next ((s.record (.debugBreak ctx)).respond {}) := by
  simp only [exec, execDispbop]; rw [whenReady_ready hr, h]

theorem exec_dispbop_raises (hr : s.Ready) {id : Byte} (ctx : Word) (h : s.trap id = none) :
    exec (.dispbop id ctx) s = .next (s.raise .unregisteredBop) := by
  simp only [exec, execDispbop]; rw [whenReady_ready hr, h]

theorem exec_piord_served (hr : s.Ready) (port : Half) (size : Word) :
    exec (.piord port size) s =
      .next ((s.record (.portRead port size)).begin (.portRead size)) := by
  simp only [exec, execPiord]; rw [whenReady_ready hr]

theorem exec_piowr_served (hr : s.Ready) (port : Half) (size : Word) (payload : List Byte) :
    exec (.piowr port size payload) s =
      .next ((s.record (.portWrite port size payload)).begin .portWrite) := by
  simp only [exec, execPiowr]; rw [whenReady_ready hr]

theorem exec_execat_served (hr : s.Ready) (h : s.outsideRealMode = false) (x y : Half) :
    exec (.execat x y) s = .next (((s.record (.engineExecuteAt x y)).updateEngine
      fun e => { e with cs := x, ip := y }).begin .execat) := by
  simp only [exec, execExecat]; rw [whenReady_ready hr, if_neg (by simp [h])]

theorem exec_execat_refused (hr : s.Ready) (h : s.outsideRealMode = true) (x y : Half) :
    exec (.execat x y) s = .refused .execatOutsideRealMode := by
  simp only [exec, execExecat]; rw [whenReady_ready hr, if_pos h]

/-- STEP is gated on READY, and then on nothing being in progress. -/
theorem exec_step_gated (s : State) : ∃ body, exec .step s = s.whenReady body := by
  simp only [exec, execStep]
  by_cases hc : s.cfault = none
  · by_cases hl : s.life = .ready
    · exact ⟨_, (whenReady_ready ⟨hl, hc⟩ fun u => execStep u).symm⟩
    · exact ⟨.next, by rw [whenReady_notReady hc hl, whenMet_fails hc (decide_eq_false hl)]⟩
  · exact ⟨.next, by rw [whenReady_faulted hc, whenMet_faulted hc]⟩

theorem exec_step_nested (hr : s.Ready) (h : s.inProgress ≠ []) :
    exec .step s = .next (s.raise .nested) := by
  simp only [exec, execStep]
  rw [whenMet_holds (by simp [hr.1]), whenMet_fails hr.2 (by simp [h])]

theorem exec_step_halted (hr : s.Ready) (h : s.inProgress = []) (hh : s.running = false) :
    exec .step s = .next ({ s with stepIssued := true }.respond {}) := by
  simp only [exec, execStep]
  rw [whenMet_holds (by simp [hr.1]), whenMet_holds (by simp [h]), whenMet_nil hr.2, if_pos hh]

theorem exec_step_served (hr : s.Ready) (h : s.inProgress = []) (hh : s.running = true) :
    exec .step s = .next (({ s with stepIssued := true }.record .engineStep).begin .step) := by
  simp only [exec, execStep]
  rw [whenMet_holds (by simp [hr.1]), whenMet_holds (by simp [h]), whenMet_nil hr.2,
    if_neg (by simp [hh])]

theorem exec_reqint_served (hr : s.Ready) (v : Byte) :
    exec (.reqint v) s = .next ((s.record (.engineRequestInterrupt v)).begin .reqint) := by
  simp only [exec, execReqint]; rw [whenReady_ready hr]

theorem exec_sigint_served (hr : s.Ready) :
    exec .sigint s =
      .next (if s.calledBack 1 then
          (((s.record .engineSignalInterrupt).updateEngine
            fun e => { e with pending := true }).consume 1).begin .sigint
        else (((s.record .engineSignalInterrupt).updateEngine
            fun e => { e with pending := true }).consume 1).respond {}) := by
  simp only [exec, execSigint]; rw [whenReady_ready hr]

theorem exec_term_served (hr : s.Ready) : exec .term s = .next (s.halt.respond {}) := by
  simp only [exec, execTerm]; rw [whenReady_ready hr]

theorem exec_rdstat (s : State) :
    exec .rdstat s = .next (s.respond { status := some s.statusWord }) := rfl

end Served

/-! ## Every command -/

/-- A command that is gated on READY: every one but INIT, CLEANUP and RDSTAT. -/
abbrev gated (i : Instr) : Prop :=
  i.opcode ≠ .init ∧ i.opcode ≠ .cleanup ∧ i.opcode ≠ .rdstat

/-- A gated command is checked for READY first. -/
theorem exec_gated {i : Instr} (h : gated i) (s : State) : ∃ body, exec i s = s.whenReady body := by
  cases i
  case init => exact absurd rfl h.1
  case cleanup => exact absurd rfl h.2.1
  case rdstat => exact absurd rfl h.2.2
  case step => exact exec_step_gated s
  all_goals exact Exists.intro _ (by simp only [exec]; rfl)

/-- The part of a request that lies in the video region, as the next two answers give it. -/
def State.videoPart (s : State) (address length : Word) : Range :=
  (requestRange (s.maskedAddress address) length.toNat).isect s.videoRange

/-- What a command that is served and raises nothing does: the state it leaves. -/
def Effect (i : Instr) (s t : State) : Prop :=
  match i with
  | .mread a n dst =>
    (s.dropped .read a n ∧ t = s.respond { rdata := some dst }) ∨
    (¬ s.dropped .read a n ∧ s.maskedAddress a + n.toNat < s.params.maxAddress ∧
      t = (s.afterFill (s.videoPart a n)).respond { rdata := some <|
        (s.afterFill (s.videoPart a n)).arena.readBytes (s.maskedAddress a) n.toNat })
  | .mwrite a n payload =>
    (s.dropped .write a n ∧ t = s.respond {}) ∨
    (¬ s.dropped .write a n ∧ s.inArena (s.maskedAddress a) payload.length ∧
      t = ((s.afterStore (s.maskedAddress a) payload).deviceForward (s.maskedAddress a) payload
        (s.videoPart a n)).respond {})
  | .seta20 b => t = (s.setA20 b).respond {}
  | .intack => ∃ v, t = ((s.record (.picPendingVector v)).callReentrantFree 1).respond
      { vec := some v }
  | .repexc _ _ _ => ∃ r, t = (((s.record (.report r)).callReentrantFree 1).halt).respond {}
  | .dispbop _ ctx => t = (s.record (.debugBreak ctx)).respond {} ∨
      ∃ h, t = (s.record (.handlerCall h ctx)).begin (.handler h)
  | .piord port size => t = (s.record (.portRead port size)).begin (.portRead size)
  | .piowr port size payload => t = (s.record (.portWrite port size payload)).begin .portWrite
  | .init x y => s.life = .uninit ∧ s.inProgress = [] ∧
      (t = s.startMachine x y ∨ t = (s.consume 1).respond { ok := some false })
  | .cleanup => s.inProgress = [] ∧ ((s.life = .ready ∧ t = s.stopMachine) ∨
      (s.life = .uninit ∧ t = { s with life := .released, response := {} }))
  | .execat x y => t = ((s.record (.engineExecuteAt x y)).updateEngine
      fun e => { e with cs := x, ip := y }).begin .execat
  | .step => s.inProgress = [] ∧ (t = { s with stepIssued := true }.respond {} ∨
      t = ({ s with stepIssued := true }.record .engineStep).begin .step)
  | .reqint v => t = (s.record (.engineRequestInterrupt v)).begin .reqint
  | .sigint => ∃ u : State, u = ((s.record .engineSignalInterrupt).updateEngine
      fun e => { e with pending := true }).consume 1 ∧ (t = u.begin .sigint ∨ t = u.respond {})
  | .term => t = s.halt.respond {}
  | .regbop id h => h ∈ s.params.handlers ∧ t = (s.setTrap id h).respond {}
  | .rdstat => t = s.respond { status := some s.statusWord }

/-- The three things a command that answers a next state can have done. -/
def CanDo (i : Instr) (s t : State) : Prop :=
  (s.cfault ≠ none ∧ i.opcode ≠ .rdstat ∧ t = s.respond {}) ∨
  (s.cfault = none ∧ i.opcode ≠ .rdstat ∧ ∃ r, t = s.raise r) ∨
  ((s.cfault = none ∨ i.opcode = .rdstat) ∧ (gated i → s.Ready) ∧ Effect i s t)

/-- Everything a command that answers a next state can have done. -/
theorem exec_cases {i : Instr} {s t : State} (h : exec i s = .next t) : CanDo i s t := by
  by_cases hg : gated i
  · obtain ⟨body, hb⟩ := exec_gated hg s
    rcases whenReady_cases (hb.symm.trans h) with ⟨hc, ht⟩ | ⟨hc, -, ht⟩ | ⟨hr, -⟩
    · cases ht; exact .inl ⟨hc, hg.2.2, rfl⟩
    · cases ht; exact .inr (.inl ⟨hc, hg.2.2, _, rfl⟩)
    · have raised : ∀ r, t = s.raise r → CanDo i s t :=
        fun r e => .inr (.inl ⟨hr.2, hg.2.2, r, e⟩)
      have done : Effect i s t → CanDo i s t := fun e => .inr (.inr ⟨.inl hr.2, fun _ => hr, e⟩)
      clear hb
      cases i
      case init => exact absurd rfl hg.1
      case cleanup => exact absurd rfl hg.2.1
      case rdstat => exact absurd rfl hg.2.2
      case mread a n dst =>
        by_cases hd : s.dropped .read a n
        · rw [exec_mread_dropped hr dst hd] at h; cases h
          exact done (.inl ⟨hd, rfl⟩)
        · have hb : s.maskedAddress a + n.toNat < s.params.maxAddress := by
            by_contra hh; exact hd (.inl (by omega))
          rw [exec_mread_served hr dst hd, readThrough_eq hb] at h; cases h
          exact done (.inr ⟨hd, hb, rfl⟩)
      case mwrite a n payload =>
        by_cases hd : s.dropped .write a n
        · rw [exec_mwrite_dropped hr payload hd] at h; cases h
          exact done (.inl ⟨hd, rfl⟩)
        · rw [exec_mwrite_served hr payload hd, writeThrough] at h
          simp only [copyIn] at h
          split at h
          · rename_i ha
            cases h
            exact done (.inr ⟨hd, by simpa only [inArena, queryVideo_params] using ha,
              by simp [afterStore, videoPart]⟩)
          · cases h
      case seta20 b => rw [exec_seta20_served hr] at h; cases h; exact done rfl
      case intack => rw [exec_intack_served hr] at h; cases h; exact done ⟨_, rfl⟩
      case repexc n cs ip =>
        cases hk : excKind n with
        | none => rw [exec_repexc_raises hr cs ip hk] at h; cases h; exact raised _ rfl
        | some k => rw [exec_repexc_served hr cs ip hk] at h; cases h; exact done ⟨_, rfl⟩
      case dispbop id ctx =>
        cases hk : s.trap id with
        | none => rw [exec_dispbop_raises hr ctx hk] at h; cases h; exact raised _ rfl
        | some k =>
          cases k with
          | debugBreak =>
            rw [exec_dispbop_debugBreak hr ctx hk] at h; cases h; exact done (.inl rfl)
          | host n => rw [exec_dispbop_host hr ctx hk] at h; cases h; exact done (.inr ⟨_, rfl⟩)
      case piord p n => rw [exec_piord_served hr] at h; cases h; exact done rfl
      case piowr p n d => rw [exec_piowr_served hr] at h; cases h; exact done rfl
      case execat x y =>
        cases hm : s.outsideRealMode with
        | true => rw [exec_execat_refused hr hm] at h; cases h
        | false => rw [exec_execat_served hr hm] at h; cases h; exact done rfl
      case step =>
        by_cases hp : s.inProgress = []
        · cases hh : s.running with
          | false => rw [exec_step_halted hr hp hh] at h; cases h; exact done ⟨hp, .inl rfl⟩
          | true => rw [exec_step_served hr hp hh] at h; cases h; exact done ⟨hp, .inr rfl⟩
        · rw [exec_step_nested hr hp] at h; cases h; exact raised _ rfl
      case reqint v => rw [exec_reqint_served hr] at h; cases h; exact done rfl
      case sigint =>
        rw [exec_sigint_served hr] at h; cases h
        refine done ⟨_, rfl, ?_⟩
        split
        · exact .inl rfl
        · exact .inr rfl
      case term => rw [exec_term_served hr] at h; cases h; exact done rfl
      case regbop id hd =>
        by_cases hh : hd ∈ s.params.handlers
        · rw [exec_regbop_served hr id hh] at h; cases h; exact done ⟨hh, rfl⟩
        · rw [exec_regbop_raises hr id hh] at h; cases h; exact raised _ rfl
  · cases i <;> simp only [gated, Instr.opcode, ne_eq, reduceCtorEq, not_false_eq_true, and_self,
      not_true_eq_false] at hg
    case rdstat => cases h; exact .inr (.inr ⟨.inr rfl, by simp [gated, Instr.opcode], rfl⟩)
    case init x y =>
      simp only [exec, execInit] at h
      rcases whenMet_cases h with ⟨hc, ht⟩ | ⟨hc, _, -, -, ht⟩ | ⟨hc, hm, ht⟩
      · cases ht; exact .inl ⟨hc, by simp [Instr.opcode], rfl⟩
      · cases ht; exact .inr (.inl ⟨hc, by simp [Instr.opcode], _, rfl⟩)
      · have hm : s.life = .uninit ∧ s.inProgress = [] := by simpa using hm
        refine .inr (.inr ⟨.inl hc, by simp [gated, Instr.opcode], hm.1, hm.2, ?_⟩)
        split at ht
        · cases ht; exact .inl rfl
        · cases ht; exact .inr rfl
    case cleanup =>
      simp only [exec, execCleanup] at h
      rcases whenMet_cases h with ⟨hc, ht⟩ | ⟨hc, _, -, -, ht⟩ | ⟨hc, hm, ht⟩
      · cases ht; exact .inl ⟨hc, by simp [Instr.opcode], rfl⟩
      · cases ht; exact .inr (.inl ⟨hc, by simp [Instr.opcode], _, rfl⟩)
      · have hp : s.inProgress = [] := by simpa using hm
        split at ht
        · cases ht
          exact .inr (.inr ⟨.inl hc, by simp [gated, Instr.opcode], hp, .inl ⟨‹_›, rfl⟩⟩)
        · cases ht
          exact .inr (.inr ⟨.inl hc, by simp [gated, Instr.opcode], hp, .inr ⟨‹_›, rfl⟩⟩)
        · cases ht; exact .inr (.inl ⟨hc, by simp [Instr.opcode], _, rfl⟩)

/-- Everything a step that answers a next state can have done. -/
theorem step_cases {s t : State} (h : step s = .next t) :
    (s.inputs = [] ∧ t = s) ∨
    (∃ r rest i, s.inputs = .command r :: rest ∧ decode r = .ok i ∧
      exec i { s with inputs := rest } = .next t) ∨
    (∃ r rest e, s.inputs = .command r :: rest ∧ decode r = .error e ∧
      t = { s with inputs := rest }.raise .illegalCmd) ∨
    (∃ rest, s.inputs = .agentReturns :: rest ∧ t = { s with inputs := rest }.agentReturns) ∨
    (∃ e rest, s.inputs = .engineMoves e :: rest ∧ t = { s with inputs := rest }.engineMoves e) ∨
    (∃ image rest, s.inputs = .hostLoad image :: rest ∧
      t = { s with inputs := rest }.hostLoad image) := by
  unfold step at h
  split at h
  · cases h; exact .inl ⟨‹_›, rfl⟩
  · rename_i r rest hi
    split at h
    · exact .inr (.inl ⟨r, rest, _, hi, ‹_›, h⟩)
    · cases h; exact .inr (.inr (.inl ⟨r, rest, _, hi, ‹_›, rfl⟩))
  · cases h; exact .inr (.inr (.inr (.inl ⟨_, ‹_›, rfl⟩)))
  · cases h; exact .inr (.inr (.inr (.inr (.inl ⟨_, _, ‹_›, rfl⟩))))
  · cases h; exact .inr (.inr (.inr (.inr (.inr ⟨_, _, ‹_›, rfl⟩))))

end Sys2Proof.Machine
end

