-- ==== Sys2Proof/Laws/PerInstr.lean ====
section
/-! SUPPORT. One lemma per command: the word the encoder writes for it selects its own row of the opcode
map (spec/30_encoding.md R86). -/

namespace Sys2Proof.Laws.RowMatch

open Sys2Proof

/-- The encoder's word for `i` selects the row `i` belongs to. -/
def Statement (i : Instr) : Prop := opcodeOf (encode i).cmd = some i.opcode

theorem mread (address length : Word) (dst : List Byte) :
    Statement (.mread address length dst) :=
  opcodeOf_bare .mread
theorem mwrite (address length : Word) (payload : List Byte) :
    Statement (.mwrite address length payload) :=
  opcodeOf_bare .mwrite
theorem seta20 (enabled : Bool) : Statement (.seta20 enabled) := by
  unfold Statement; cases enabled <;> decide
theorem intack : Statement .intack :=
  opcodeOf_bare .intack
theorem repexc (n : Byte) (cs ip : Half) : Statement (.repexc n cs ip) := opcodeOf_withImm _ rfl n
theorem dispbop (id : Byte) (stackContext : Word) : Statement (.dispbop id stackContext) :=
  opcodeOf_withImm _ rfl id
theorem piord (port : Half) (size : Word) : Statement (.piord port size) :=
  opcodeOf_bare .piord
theorem piowr (port : Half) (size : Word) (payload : List Byte) :
    Statement (.piowr port size payload) :=
  opcodeOf_bare .piowr
theorem init (inHandle outHandle : Word) : Statement (.init inHandle outHandle) :=
  opcodeOf_bare .init
theorem cleanup : Statement .cleanup :=
  opcodeOf_bare .cleanup
theorem execat (segment offset : Half) : Statement (.execat segment offset) :=
  opcodeOf_bare .execat
theorem step : Statement .step :=
  opcodeOf_bare .step
theorem reqint (vector : Byte) : Statement (.reqint vector) := opcodeOf_withImm _ rfl vector
theorem sigint : Statement .sigint :=
  opcodeOf_bare .sigint
theorem term : Statement .term :=
  opcodeOf_bare .term
theorem regbop (id : Byte) (handler : Handle) : Statement (.regbop id handler) :=
  opcodeOf_withImm _ rfl id
theorem rdstat : Statement .rdstat :=
  opcodeOf_bare .rdstat

end Sys2Proof.Laws.RowMatch
end

