-- ==== Sys2Proof/Tests/Slice0.lean ====
section
/-! SUPPORT. The author's own tests: the refusals of WellFormed, the decoding of words written out from
spec/30_encoding.md R94 and spec/95_test_vectors.md 2.5, one-step vectors of spec/95_test_vectors.md, and
for every obligation with hypotheses a witness that meets them. -/

namespace Sys2Proof.Tests

open Sys2Proof Sys2Proof.Machine

/-! ## States -/

/-- The parameters of the common setup S0 (spec/95_test_vectors.md); the OPEN ones are given values. -/
def params : Params where
  maxAddress := 0x100000
  romBase := 0xF0000
  romLimit := 0x100000
  a20Reset := false
  debugBopId := 0x42
  handlers := [.host 1, .host 2]

def engine : Engine := ⟨0, 0, true, false, true⟩

/-- The answers of the setup's video device to the two queries of its bounds. -/
def video : List Answer := [⟨0xA0000, false⟩, ⟨0xB8000, false⟩]

/-- An answer of one byte. -/
def byte (b : Word) : Answer := ⟨b, false⟩

/-- Creation with the setup's parameters. -/
def fresh : State := { State.reset with params := params, a20 := false }

/-- S0: READY, with an empty history of its own. -/
def s0 : State :=
  { fresh with life := .ready, engine := some engine, traps := [(0x42, .debugBreak)], answers := video }

/-- S0 with the gate set. -/
def s1 : State := { s0 with a20 := true }

/-- The answers of a successful INIT whose agents issue no command: the allocation, the engine's CS:IP and
flags, and one for each of the six other calls. -/
def starting : List Answer := byte 1 :: byte 0x7C00 :: List.replicate 7 (byte 0)

/-- A machine before INIT, with those answers. -/
def starts : State := { fresh with answers := starting }

/-- An answer of an agent that issues commands before it gives it. -/
def callsBack : Answer := ⟨0, true⟩

/-- S0 where no device issues a command from inside its cleanup. -/
def stops : State := { s0 with answers := List.replicate 5 (byte 0) }

/-- A machine in INIT, inside the PIC's initialization. -/
def inInit : State :=
  { fresh with
    engine := some { engine with interruptEnable := false }
    answers := List.replicate 5 (byte 0)
    inProgress := [.init [.deviceInit .timer, .deviceInit .rtc, .deviceInit .sound, .inputInit 1 2,
      .enableInterrupts]] }

/-- S0 in CLEANUP, inside the timer's cleanup. -/
def inCleanup : State :=
  { s0 with inProgress := [.cleanup [.deviceCleanup .pic]], answers := video ++ [byte 0] }

/-- A command is a next state in which `p` holds. -/
def holds (o : Result) (p : State → Bool) : Bool :=
  match o with
  | .next t => p t
  | .fault _ => false
  | .refused _ => false

/-- The next state, or the state itself where there is none. -/
def next (s : State) (o : Result) : State :=
  match o with
  | .next t => t
  | .fault _ => s
  | .refused _ => s

/-- The two events of a sampling of the setup's video bounds. -/
def vbvl : List Event := [.videoBase 0xA0000, .videoLimit 0xB8000]

/-! ## WellFormed refuses -/

theorem test_mread_short_buffer : (Instr.mread 0 2 [0xEE]).wellFormed = false := by decide
theorem test_mwrite_long_payload : (Instr.mwrite 0 1 [1, 2]).wellFormed = false := by decide
theorem test_piowr_empty_payload : (Instr.piowr 0x60 1 []).wellFormed = false := by decide
theorem test_mread_empty_buffer : (Instr.mread 0 0 []).wellFormed = true := by decide

/-! ## Decoding: the words of R94 and of the vectors 2.5 -/

theorem test_decode_mread :
    decode ⟨0x00000001, 0x000B7FFE, 4, [0, 0, 0, 0], .host 0⟩ =
      .ok (.mread 0x000B7FFE 4 [0, 0, 0, 0]) := by decide
theorem test_decode_mwrite :
    decode ⟨0x00000002, 0x000F0000, 2, [0xFF, 0xFE], .host 0⟩ =
      .ok (.mwrite 0x000F0000 2 [0xFF, 0xFE]) := by decide
theorem test_decode_seta20 :
    decodeTableWord 32 0x00000103 = some (.seta20 true) ∧
    decodeTableWord 32 0x00000003 = some (.seta20 false) := by decide
theorem test_decode_intack : decodeTableWord 32 0x00000004 = some .intack := by decide
theorem test_decode_repexc :
    decodeTableWord 64 0x12340010_00000605 = some (.repexc 6 0x1234 0x0010) ∧
    decodeTableWord 32 0x0000FF05 = some (.repexc 255 0 0) := by decide
theorem test_decode_dispbop :
    decodeTableWord 64 0x0000FFFE_00005606 = some (.dispbop 0x56 0x0000FFFE) := by decide
theorem test_decode_piord :
    decodeTableWord 96 0x00000001_00000060_00000007 = some (.piord 0x0060 1) := by decide
theorem test_decode_piowr :
    decodeTableWord 104 0x20_00000001_00000020_00000008 = some (.piowr 0x0020 1 [0x20]) := by decide
theorem test_decode_init :
    decodeTableWord 96 0x00000002_00000001_00000010 = some (.init 1 2) := by decide
theorem test_decode_cleanup : decodeTableWord 32 0x00000011 = some .cleanup := by decide
theorem test_decode_execat :
    decodeTableWord 64 0x00007C00_00000012 = some (.execat 0x0000 0x7C00) ∧
    decodeTableWord 64 0x12345678_00000012 = some (.execat 0x1234 0x5678) := by decide
theorem test_decode_step : decodeTableWord 32 0x00000013 = some .step := by decide
theorem test_decode_reqint :
    decodeTableWord 32 0x00001014 = some (.reqint 0x10) ∧
    decodeTableWord 32 0x0000FF14 = some (.reqint 0xFF) := by decide
theorem test_decode_sigint : decodeTableWord 32 0x00000015 = some .sigint := by decide
theorem test_decode_term : decodeTableWord 32 0x00000016 = some .term := by decide
theorem test_decode_regbop :
    decode ⟨0x00005617, 0, 0, [], .host 7⟩ = .ok (.regbop 0x56 (.host 7)) := by decide
theorem test_decode_rdstat : decodeTableWord 32 0x00000018 = some .rdstat := by decide

/-- The illegal words of the vectors 2.5 and of A18, K16 and H8, with the clause of R87 each falls under. -/
theorem test_illegal_words :
    decode ⟨0x00000000, 0, 0, [], .host 0⟩ = .error .unassignedOpcode ∧
    decode ⟨0x00000009, 0, 0, [], .host 0⟩ = .error .unassignedOpcode ∧
    decode ⟨0x000000FF, 0, 0, [], .host 0⟩ = .error .unassignedOpcode ∧
    decode ⟨0x00000019, 0, 0, [], .host 0⟩ = .error .unassignedOpcode ∧
    decode ⟨0x00010001, 0, 0, [], .host 0⟩ = .error .reservedBits ∧
    decode ⟨0x00000101, 0, 0, [], .host 0⟩ = .error .unusedImmediate ∧
    decode ⟨0x00000113, 0, 0, [], .host 0⟩ = .error .unusedImmediate ∧
    decode ⟨0x00000203, 0, 0, [], .host 0⟩ = .error .enableBits ∧
    decode ⟨0x00000303, 0, 0, [], .host 0⟩ = .error .enableBits ∧
    decode ⟨0x00000007, 0x00010060, 1, [], .host 0⟩ = .error .portBits ∧
    decode ⟨0x00000002, 0x500, 1, [], .host 0⟩ = .error .dataLength := by decide

/-- A word placed for the host is the next command to run (log entry 4). -/
theorem test_withFetchWord_runs :
    holds (step (State.reset.withFetchWord 32 0x00000018))
      (fun t => t.response.status == some 0x00000002) = true := by decide

/-! ## The memory arbiter: vectors W1 to W6 and A1 to A22 -/

theorem test_W1_write_mirrors_the_video_part :
    holds (exec (.mwrite 0xB7FFE 4 [0x11, 0x22, 0x33, 0x44])
      { s0 with answers := video ++ [byte 0] }) (fun t =>
      t.arena == [(0xB7FFE, 0x11), (0xB7FFF, 0x22), (0xB8000, 0x33), (0xB8001, 0x44)] &&
      t.history == vbvl ++ [.deviceWrite 0xB7FFE [0x11, 0x22] 2]) = true := by decide

/-- W5 and A11: the range reaches the read-only region, and nothing is written. -/
theorem test_A11_write_into_rom_is_dropped_whole :
    holds (exec (.mwrite 0xEFFFF 2 [0xAA, 0xBB]) s0) (fun t => t == s0) = true := by decide

theorem test_A3_read_wraps_with_the_gate_clear :
    holds (exec (.mread 0x100500 2 [0, 0]) { s0 with arena := [(0x500, 0x12), (0x501, 0x34)] })
      (fun t => t.response == { rdata := some [0x12, 0x34] } && t.history == vbvl) = true := by
  decide

theorem test_A14_read_fills_from_the_device :
    holds (exec (.mread 0x9FFFF 2 [0, 0])
      { s0 with arena := [(0x9FFFF, 0x11)], answers := video ++ [byte 0x5A] }) (fun t =>
      t.response == { rdata := some [0x11, 0x5A] } &&
      t.arena == [(0x9FFFF, 0x11), (0xA0000, 0x5A)] &&
      t.history == vbvl ++ [.deviceRead 0xA0000 1 [0x5A]]) = true := by decide

/-- A20, and A4: the gate set, the same read is dropped. -/
theorem test_A20_gate_is_set_and_shows :
    holds (exec (.seta20 true) s0) (fun t => t.statusWord == 0x00000007 &&
      holds (exec (.mread 0x100500 2 [0xEE, 0xEE]) t) (fun u =>
        u.response == { rdata := some [0xEE, 0xEE] } && u.history == [])) = true := by decide

/-! ## The controller: vectors K1 to K14 -/

theorem test_K1_init :
    holds (exec (.init 1 2) starts) (fun t =>
      t.response == { ok := some true } && t.statusWord == 0x00000006 &&
      t.traps == [(0x42, .debugBreak)] && t.arena == [] && t.history.length == 7 &&
      t.inProgress == []) = true := by decide

/-- R91: "any command in progress". The PIC issues an INIT from inside its initialization. -/
theorem test_nested_init_inside_init :
    holds (exec (.init 1 2) { fresh with answers := byte 1 :: byte 0 :: byte 0 :: [callsBack] }) (fun t =>
      t.response == {} && t.history.length == 2 &&
      holds (exec (.init 1 2) t) (fun u =>
        u.cfault == some .nested && u.statusWord == 0x00000012)) = true := by decide

/-- The rest of the calls follow when the PIC returns, and INIT answers. -/
theorem test_init_goes_on_when_its_device_returns :
    holds (step { inInit with inputs := [.agentReturns] }) (fun t =>
      t.response == { ok := some true } && t.statusWord == 0x00000006 && t.inProgress == [] &&
      t.history == [.deviceInit .timer, .deviceInit .rtc, .deviceInit .sound, .inputInit 1 2,
        .engineInterruptEnable true]) = true := by decide

theorem test_K2_failed_init :
    holds (exec (.init 1 2) { fresh with answers := [byte 0] }) (fun t =>
      t.response == { ok := some false } && t.statusWord == 0x00000002 && t.history == []) = true := by
  decide

theorem test_K5_cleanup :
    holds (exec .cleanup stops) (fun t => t.statusWord == 0x0000000A && t.history ==
      [.deviceCleanup .input, .deviceCleanup .sound, .deviceCleanup .rtc, .deviceCleanup .timer,
       .deviceCleanup .pic]) = true := by decide

/-- Inside a CLEANUP the machine is still READY: a MREAD is served, a STEP is NESTED (R91). -/
theorem test_commands_inside_cleanup :
    holds (exec (.mread 0x500 1 [0xEE]) inCleanup)
      (fun t => t.response == { rdata := some [0] } && t.statusWord == 0x00000006) = true ∧
    holds (exec .step inCleanup) (fun t => t.cfault == some .nested) = true := by decide

theorem test_K6_second_cleanup :
    holds (exec .cleanup { s0 with life := .released }) (fun t => t.statusWord == 0x0000001A) = true := by
  decide

theorem test_K9_execat :
    holds (exec (.execat 0x1234 0x5678) s0) (fun t => t.statusWord == 0x00000006 &&
      t.engine == some ⟨0x1234, 0x5678, true, false, true⟩ &&
      t.history == [.engineExecuteAt 0x1234 0x5678]) = true := by decide

theorem test_K10_term_and_K11_step_after_it :
    holds (exec .term s0) (fun t => t.statusWord == 0x00000004 &&
      holds (exec .step t) (fun u => u.statusWord == 0x00000004 && u.history == [])) = true := by decide

theorem test_K13_reqint_while_halted :
    holds (exec (.reqint 0x10) { s0 with running := false }) (fun t =>
      t.statusWord == 0x00000004 && t.history == [.engineRequestInterrupt 0x10]) = true := by decide

theorem test_K14_sigint_sets_one_flag :
    holds (exec .sigint s0) (fun t => holds (exec .sigint t) (fun u =>
      u.engine == some ⟨0, 0, true, true, true⟩ &&
      u.history == [.engineSignalInterrupt, .engineSignalInterrupt])) = true := by decide

/-- R91: the engine issues a CLEANUP from inside the signal. -/
theorem test_nested_cleanup_inside_sigint :
    holds (exec .sigint { s0 with answers := [callsBack] }) (fun t => t.inProgress == [.sigint] &&
      holds (exec .cleanup t) (fun u => u.cfault == some .nested && u.history == t.history)) = true := by
  decide

theorem test_K15_nested_step :
    holds (exec .step { s0 with inProgress := [.handler (.host 1), .step] }) (fun t =>
      t.statusWord == 0x00000016 && t.cfault == some .nested && t.history == []) = true := by decide

/-- Where the first check of R120 and of R123 fails as well, its reason is the one recorded. -/
theorem test_order_of_the_checks :
    holds (exec (.init 1 2) { s0 with inProgress := [.step] })
      (fun t => t.cfault == some .lifecycle && t.statusWord == 0x00000016) = true ∧
    holds (exec .step inInit) (fun t => t.cfault == some .notReady) = true := by decide

theorem test_K16_illegal_step_word :
    holds (step (s0.withFetchWord 32 0x00000113)) (fun t =>
      t.statusWord == 0x00000016 && t.cfault == some .illegalCmd) = true := by decide

theorem test_K8_rdstat_after_cleanup :
    holds (exec .rdstat { s0 with life := .released })
      (fun t => t.response == { status := some 0x0000000A }) = true := by decide

/-! ## The bridge: vectors B1 to B7 -/

theorem test_B1_intack :
    holds (exec .intack { s0 with answers := [byte 0x08] }) (fun t =>
      t.response == { vec := some 0x08 } && t.history == [.picPendingVector 0x08]) = true := by decide

theorem test_B4_report_wraps_with_the_gate_clear :
    holds (exec (.repexc 0 0xFFFF 0x0010)
      { s0 with arena := [(0, 0xA0), (1, 0xA1), (9, 0xA9), (10, 0xAA)] }) (fun t =>
      t.statusWord == 0x00000004 && t.history ==
      [.report ⟨.divideByZero, 0xFFFF, 0x0010, [0xA0, 0xA1, 0, 0, 0, 0, 0, 0, 0, 0xA9]⟩]) = true := by
  decide

theorem test_B6_report_is_clipped :
    holds (exec (.repexc 4 0xF000 0xFFF8) s1) (fun t => t.statusWord == 0x00000005 &&
      t.history == [.report ⟨.overflow, 0xF000, 0xFFF8, [0, 0, 0, 0, 0, 0, 0, 0]⟩]) = true := by decide

/-- B10: the order of the kinds. -/
theorem test_B10_kinds :
    (List.range 9).map (fun n => excKind (BitVec.ofNat 8 n)) =
      [some .divideByZero, some .debug, some .unexpectedOrDoubleFault, some .breakpoint,
       some .overflow, some .boundRange, some .invalidOpcode, some .deviceUnavailable, none] := by
  decide

/-! ## Hypercalls and ports: vectors H1 to H7 -/

theorem test_H2_last_registration_wins :
    holds (exec (.regbop 0x20 (.host 1)) s0) (fun t => holds (exec (.regbop 0x20 (.host 2)) t) (fun u =>
      holds (exec (.dispbop 0x20 0) u) (fun v => v.history == [.handlerCall (.host 2) 0]))) = true := by
  decide

theorem test_H4_debug_break :
    holds (exec (.dispbop 0x42 0x00001000) s0) (fun t =>
      t.statusWord == 0x00000006 && t.history == [.debugBreak 0x00001000]) = true := by decide

theorem test_H5_bad_handle :
    holds (exec (.regbop 0x20 (.host 3)) s0) (fun t => t.cfault == some .badHandle) = true := by decide

/-- H6: the router's answer comes when it returns. -/
theorem test_H6_port_read :
    holds (exec (.piord 0x60 1) { s0 with answers := [byte 0x1C], inputs := [.agentReturns] }) (fun t =>
      t.history == [.portRead 0x60 1] &&
      holds (step t) (fun u => u.response == { rdata := some [0x1C] } && u.inProgress == [])) = true := by
  decide

/-- H7: a device behind the router sets the gate while the port write is in progress. -/
theorem test_H7_nested_seta20 :
    holds (exec (.piowr 0x92 1 [0x02]) s0) (fun t =>
      t.history == [.portWrite 0x92 1 [0x02]] &&
      holds (exec (.seta20 true) t) (fun u => u.statusWord == 0x00000007)) = true := by decide

/-! ## Witnesses: states and operands that meet the hypotheses of the obligations -/

theorem witness_DecodeOfEncodeIsTheCommand :
    (Instr.mread 0xFFFFFFFF 1 [0xEE]).wellFormed = true ∧ (Instr.regbop 0xFF .debugBreak).wellFormed = true := by
  decide

/-- One request for each clause of the match, at operands of all ones where the encoding admits them. -/
theorem witness_DecodedCommandHoldsEveryListedField :
    decode ⟨1, 0xFFFFFFFF, 1, [7], .host 0⟩ = .ok (.mread 0xFFFFFFFF 1 [7]) ∧
    decode ⟨8, 0x0000FFFF, 1, [7], .host 0⟩ = .ok (.piowr 0xFFFF 1 [7]) ∧
    decode ⟨7, 0x0000FFFF, 0xFFFFFFFF, [], .host 0⟩ = .ok (.piord 0xFFFF 0xFFFFFFFF) ∧
    decode ⟨0xFF05, 0xFFFF0000, 0, [], .host 0⟩ = .ok (.repexc 0xFF 0xFFFF 0) ∧
    decode ⟨0xFF06, 0xFFFFFFFF, 0, [], .host 0⟩ = .ok (.dispbop 0xFF 0xFFFFFFFF) ∧
    decode ⟨0x10, 0xFFFFFFFF, 0, [], .host 0⟩ = .ok (.init 0xFFFFFFFF 0) ∧
    decode ⟨0xFF17, 0, 0, [], .host 9⟩ = .ok (.regbop 0xFF (.host 9)) ∧
    decode ⟨0x103, 0, 0, [], .host 0⟩ = .ok (.seta20 true) := by decide

theorem witness_OpcodeRowsNeverOverlap :
    Opcode.repexc.selects 0x0000FF05 = true ∧ Opcode.seta20.selects 0x00000103 = true := by decide

/-- One request for each clause of R87, each outside every other clause. -/
theorem witness_IllegalEncodingRaisesIllegalCmd :
    ({ s0 with inputs := [.command ⟨0, 0, 0, [], .host 0⟩] } : State).cfault = none ∧
    illegalEncoding ⟨0x09, 0, 0, [], .host 0⟩ ∧ illegalEncoding ⟨0x00010013, 0, 0, [], .host 0⟩ ∧
    illegalEncoding ⟨0x00000118, 0, 0, [], .host 0⟩ ∧ illegalEncoding ⟨0x00000203, 0, 0, [], .host 0⟩ ∧
    illegalEncoding ⟨0x07, 0x00010000, 0, [], .host 0⟩ ∧
    illegalEncoding ⟨0x02, 0, 1, [], .host 0⟩ := by
  refine ⟨rfl, ?_, ?_, ?_, ?_, ?_, ?_⟩ <;> simp only [illegalEncoding] <;> decide

theorem witness_EveryLegalEncodingDecodes :
    ¬ illegalEncoding ⟨0x0000FF05, 0xFFFFFFFF, 0xFFFFFFFF, [1], .host 0⟩ ∧
    ¬ illegalEncoding ⟨0x00000103, 0, 0, [], .host 0⟩ := by
  simp only [illegalEncoding]; decide

theorem witness_StepRunsTheDecodedCommand :
    (State.reset.withFetchWord 32 0x00000018).inputs = [.command ⟨0x18, 0, 0, [], .host 0⟩] ∧
    decode ⟨0x18, 0, 0, [], .host 0⟩ = .ok .rdstat := by decide

theorem witness_StepWithoutInputWaits : State.reset.inputs = [] := by decide

theorem witness_ReturnCompletesTheInnermostCommand :
    ({ s0 with inputs := [.agentReturns] } : State).inProgress = [] ∧
    ({ s0 with inputs := [.agentReturns], inProgress := [.portRead 0, .step] } : State).inProgress =
      .portRead 0 :: [.step] ∧
    ({ s0 with inputs := [.agentReturns], inProgress := [.execat] } : State).inProgress =
      .execat :: [] ∧ (∀ size, Activity.execat ≠ .portRead size) ∧
    (∀ left, Activity.execat ≠ .init left) ∧ ∀ left, Activity.execat ≠ .cleanup left := by
  refine ⟨rfl, rfl, rfl, ?_, ?_, ?_⟩ <;> (intro x h; cases h)

/-- One state for each clause, and for a call both that the agent issues commands and that it does not. -/
theorem witness_InitAndCleanupMakeTheirCallsInTurn :
    (starts.life = .uninit ∧ starts.cfault = none ∧ starts.inProgress = [] ∧
      (starts.answerAt 0).value.getLsbD 0 = true) ∧
    (s0.Ready ∧ s0.inProgress = []) ∧
    ((Activity.init = .init ∨ Activity.init = .cleanup) ∧
      ∃ left, inInit.inProgress = .init (.deviceInit .timer :: left) :: [] ∧
        (∀ k < 1, (inInit.answerAt k).callsBack = false)) ∧
    (∃ left, inCleanup.inProgress = .cleanup (.deviceCleanup .pic :: left) :: [] ∧
      ∃ k < 1, (({ inCleanup with answers := [callsBack] } : State).answerAt k).callsBack = true) ∧
    (({ inInit with inProgress := [.init []] } : State).inProgress = .init [] :: [] ∧
      ({ inCleanup with inProgress := [.cleanup []] } : State).inProgress = .cleanup [] :: []) :=
  ⟨by decide, by decide, ⟨.inl rfl, _, rfl, by decide⟩, ⟨_, rfl, 0, by decide, by decide⟩, rfl, rfl⟩

theorem witness_EngineMovesOnlyWhileItRuns :
    Activity.step ∈ ({ s0 with inProgress := [.handler (.host 1), .step] } : State).inProgress ∧
    Activity.execat ∈ ({ s0 with inProgress := [.execat] } : State).inProgress ∧
    Activity.reqint ∈ ({ s0 with inProgress := [.reqint] } : State).inProgress ∧
    (Activity.step ∉ ({ s0 with inProgress := [.portWrite] } : State).inProgress ∧
      Activity.execat ∉ ({ s0 with inProgress := [.portWrite] } : State).inProgress ∧
      Activity.reqint ∉ ({ s0 with inProgress := [.portWrite] } : State).inProgress) := by decide

theorem witness_ImageLoadSetsBytesBeforeTheFirstStep :
    (s0.life = .ready ∧ s0.stepIssued = false) ∧ ¬ (fresh.life = .ready ∧ fresh.stepIssued = false) ∧
    ¬ (({ s0 with stepIssued := true } : State).life = .ready ∧
      ({ s0 with stepIssued := true } : State).stepIssued = false) := by decide

/-- A read whose range ends at `MAX_ADDRESS`, and writes of the first byte of the read-only region and of
the last one that is not cut off by the bounds. -/
theorem witness_DroppedAccessHasNoEffect :
    s0.Ready ∧ s0.params.maxAddress ≤ (maskA20 s0.a20 0xFFFFE).toNat + (2 : Word).toNat ∧
    (∃ x, (maskA20 s0.a20 0xEFFFF).toNat ≤ x ∧ x < (maskA20 s0.a20 0xEFFFF).toNat + (2 : Word).toNat ∧
      s0.params.romBase ≤ x ∧ x < s0.params.romLimit) ∧
    (∃ x, (maskA20 s0.a20 0xFFFFE).toNat ≤ x ∧ x < (maskA20 s0.a20 0xFFFFE).toNat + (1 : Word).toNat ∧
      s0.params.romBase ≤ x ∧ x < s0.params.romLimit) :=
  ⟨by decide, by decide, ⟨0xF0000, by decide⟩, ⟨0xFFFFE, by decide⟩⟩

/-- The largest range: it ends one byte below `MAX_ADDRESS`. -/
theorem witness_ReadAnswersArenaAndDeviceBytes :
    s0.Ready ∧ (maskA20 s0.a20 0xFFFFD).toNat + (2 : Word).toNat < s0.params.maxAddress := by decide

/-- A range that ends where the read-only region begins. -/
theorem witness_WriteStoresPayloadAndTellsTheDevice :
    s0.Ready ∧ ([0xAA, 0xBB] : List Byte).length = (2 : Word).toNat ∧
    (maskA20 s0.a20 0xEFFFE).toNat + (2 : Word).toNat < s0.params.maxAddress ∧
    ∀ x, (maskA20 s0.a20 0xEFFFE).toNat ≤ x → x < (maskA20 s0.a20 0xEFFFE).toNat + (2 : Word).toNat →
      ¬ (s0.params.romBase ≤ x ∧ x < s0.params.romLimit) := by
  refine ⟨by decide, by decide, by decide, ?_⟩
  intro x _ h
  have h1 : (maskA20 s0.a20 0xEFFFE).toNat + (2 : Word).toNat = 0xF0000 := by decide
  have h2 : s0.params.romBase = 0xF0000 := rfl
  omega

/-- S0 with answers for a write outside the video region and for the read after it. -/
def twice : State := { s0 with answers := video ++ video }

theorem witness_ReadAfterWriteAnswersThePayload :
    twice.Ready ∧ ([0x12, 0x34] : List Byte).length = (2 : Word).toNat ∧
    ¬ twice.dropped .write 0x500 2 ∧
    ∃ t, exec (.mwrite 0x500 2 [0x12, 0x34]) twice = .next t ∧ t.cfault = none ∧
      ∀ x, twice.maskedAddress 0x500 ≤ x → x < twice.maskedAddress 0x500 + (2 : Word).toNat →
        ¬ ((t.answerAt 0).value.toNat ≤ x ∧ x < (t.answerAt 1).value.toNat) := by
  refine ⟨by decide, by decide, by decide, _, rfl, by decide, ?_⟩
  intro x _ h
  have h1 : twice.maskedAddress 0x500 + (2 : Word).toNat = 0x502 := by decide
  rintro ⟨h3, -⟩
  have h4 : 0xA0000 ≤ x := h3
  omega

/-- A read of the last two bytes of the video region. -/
theorem witness_ReadInTheVideoRegionAnswersTheDevice :
    s0.Ready ∧ ¬ s0.dropped .read 0xB7FFE 2 ∧
    (s0.answerAt 0).value.toNat ≤ s0.maskedAddress 0xB7FFE ∧
    s0.maskedAddress 0xB7FFE + (2 : Word).toNat ≤ (s0.answerAt 1).value.toNat := by decide

/-- A write that ends where the read-only region begins; both ends of that region lie in it. -/
theorem witness_WritesNeverChangeReadOnlyBytes :
    ([0xAA] : List Byte).length = (1 : Word).toNat ∧
    (∃ t, exec (.mwrite 0xEFFFF 1 [0xAA]) s0 = .next t ∧ t.arena = [(0xEFFFF, 0xAA)]) ∧
    (s0.params.romBase ≤ 0xF0000 ∧ 0xF0000 < s0.params.romLimit) ∧
    (s0.params.romBase ≤ 0xFFFFF ∧ 0xFFFFF < s0.params.romLimit) :=
  ⟨by decide, ⟨_, rfl, by decide⟩, by decide, by decide⟩

theorem witness_BitTwentyIsIgnoredWhileTheGateIsClear : s0.a20 = false := by decide

/-- The byte `MAX_ADDRESS - 1` as the first and as the last of a range, and the longest range of all. -/
theorem witness_LastArenaByteIsNeverTransferred :
    s0.Ready ∧ s0.params.wf ∧
    (s0.maskedAddress 0xFFFFF ≤ s0.params.maxAddress - 1 ∧
      s0.params.maxAddress - 1 < s0.maskedAddress 0xFFFFF + (1 : Word).toNat) ∧
    (s0.maskedAddress 0 = 0 ∧ (0xFFFFF : Word).toNat = s0.params.maxAddress - 1) := by decide

/-- READY, with no contract fault and the handle and operands of the statements about one command. -/
theorem witness_commands_in_a_ready_state :
    s0.Ready ∧ s0.engine = some engine ∧ engine.realMode = true ∧ s0.inProgress = [] ∧
    s0.running = true ∧ ({ s0 with running := false } : State).running = false ∧
    Handle.host 1 ∈ s0.params.handlers ∧ Handle.host 2 ∈ s0.params.handlers ∧
    tableLookup (0x42 : Byte).toNat s0.traps = some .debugBreak := by decide

theorem witness_InitStartsTheMachine :
    starts.life = .uninit ∧ starts.cfault = none ∧ starts.inProgress = [] ∧
    (starts.answerAt 0).value.getLsbD 0 = true ∧
    ∀ k < 8, (starts.answerAt (1 + k)).callsBack = false := by decide

theorem starts_inv : starts.Inv := ⟨by decide, by decide, by decide, by decide⟩

theorem inInit_inv : inInit.Inv := ⟨by decide, by decide, by decide, by decide⟩

theorem inCleanup_inv : inCleanup.Inv := ⟨by decide, by decide, by decide, by decide⟩

theorem stops_inv : stops.Inv := ⟨by decide, by decide, by decide, by decide⟩

/-- An INIT that completes at once, and one that completes when its last call returns. -/
theorem witness_SuccessfulInitLeavesTheReadyStatus :
    (starts.Inv ∧ ∃ t, exec (.init 1 2) starts = .next t ∧ t.response.ok = some true) ∧
    (({ inInit with inputs := [.agentReturns] } : State).Inv ∧
      ∃ left t, inInit.inProgress = [.init left] ∧
        step { inInit with inputs := [.agentReturns] } = .next t ∧ t.response.ok = some true) :=
  ⟨⟨starts_inv, _, rfl, by decide⟩, ⟨by decide, by decide, by decide, by decide⟩, _, _, rfl, rfl, by decide⟩

theorem witness_FailedInitChangesNothing :
    (({ fresh with answers := [byte 0] } : State).life = .uninit ∧
      (({ fresh with answers := [byte 0] } : State).answerAt 0).value.getLsbD 0 = false) ∧
    ∃ t, exec (.init 1 2) { fresh with answers := [byte 0] } = .next t ∧ t.response.ok = some false :=
  ⟨by decide, _, rfl, by decide⟩

theorem witness_InitOutsideUninitIsALifecycleFault :
    s0.cfault = none ∧ s0.life ≠ .uninit ∧ ({ s0 with life := .released } : State).life ≠ .uninit ∧
    ({ s0 with inProgress := [.step] } : State).life ≠ .uninit := by decide

theorem witness_CleanupReleasesTheMachine :
    (stops.cfault = none ∧ stops.inProgress = [] ∧ stops.life = .ready ∧
      ∀ k < 5, (stops.answerAt k).callsBack = false) ∧
    (fresh.cfault = none ∧ fresh.inProgress = [] ∧ fresh.life = .uninit) ∧
    (({ fresh with life := .released } : State).inProgress = [] ∧
      ({ fresh with life := .released } : State).life = .released) := by decide

/-- S0 with the engine outside real mode. -/
def protectedMode : State := { s0 with engine := some { engine with realMode := false } }

theorem witness_ExecatOutsideRealModeIsRefused :
    protectedMode.Ready ∧ protectedMode.engine = some { engine with realMode := false } := by decide

theorem witness_NestedControlsRaiseNested :
    ({ s0 with inProgress := [.reqint] } : State).cfault = none ∧
    ({ s0 with inProgress := [.reqint] } : State).inProgress ≠ [] ∧
    inInit.cfault = none ∧ inInit.inProgress ≠ [] := by decide

/-- The first and the last kind; a linear address below and above `2^20`. -/
theorem witness_RepexcReportsAndHalts :
    s0.Ready ∧
    ([ExcKind.divideByZero, .debug, .unexpectedOrDoubleFault, .breakpoint, .overflow, .boundRange,
      .invalidOpcode, .deviceUnavailable])[(0 : Byte).toNat]? = some .divideByZero ∧
    ([ExcKind.divideByZero, .debug, .unexpectedOrDoubleFault, .breakpoint, .overflow, .boundRange,
      .invalidOpcode, .deviceUnavailable])[(7 : Byte).toNat]? = some .deviceUnavailable ∧
    (0xFFFF : Half).toNat * 16 + (0x000F : Half).toNat = 2 ^ 20 - 1 ∧
    (0xFFFF : Half).toNat * 16 + (0x0010 : Half).toNat = 2 ^ 20 := by decide

/-- S0 with a host handler registered. -/
def hooked : State := { s0 with traps := [(0x20, .host 1), (0x42, .debugBreak)] }

theorem witness_DispbopInvokesTheHandlerOnce :
    hooked.Ready ∧ tableLookup (0x20 : Byte).toNat hooked.traps = some (.host 1) := by decide

/-- The first number that is no kind, an identifier with no entry, an unknown handle. -/
theorem witness_IllegalOperandValuesAreContractFaults :
    s0.Ready ∧ 8 ≤ (8 : Byte).toNat ∧ tableLookup (0x77 : Byte).toNat s0.traps = none ∧
    Handle.host 3 ∉ s0.params.handlers := by decide

theorem witness_LastRegistrationWins :
    s0.Ready ∧ Handle.host 1 ∈ s0.params.handlers ∧ Handle.host 2 ∈ s0.params.handlers ∧
    ∃ t u, exec (.regbop 0x20 (.host 1)) s0 = .next t ∧
      exec (.regbop 0x20 (.host 2)) t = .next u :=
  ⟨by decide, by decide, by decide, _, _, rfl, rfl⟩

theorem witness_CommandsOutsideReadyAreContractFaults :
    fresh.cfault = none ∧ fresh.life ≠ .ready ∧ Instr.step.opcode ≠ .init ∧
    Instr.step.opcode ≠ .cleanup ∧ Instr.step.opcode ≠ .rdstat ∧
    inInit.cfault = none ∧ inInit.life ≠ .ready ∧ inInit.inProgress ≠ [] := by decide

/-- S0 after a contract fault, with a command to come. -/
def faulted : State :=
  { s0 with cfault := some .badHandle, inputs := [.command ⟨0x16, 0, 0, [], .host 0⟩] }

theorem witness_AfterAContractFaultOnlyRdstatIsServed :
    faulted.cfault ≠ none ∧ Instr.term.opcode ≠ .rdstat := by decide

theorem witness_ContractFaultIsNeverCleared :
    faulted.cfault = some .badHandle ∧ ∃ t, step faulted = .next t :=
  ⟨by decide, _, rfl⟩

theorem witness_OnlySeta20WritesTheGate :
    (∃ t, exec (.seta20 true) s0 = .next t) ∧
    ∃ t, step (s0.withFetchWord 32 0x00000103) = .next t ∧ t.a20 ≠ s0.a20 :=
  ⟨⟨_, rfl⟩, _, rfl, by decide⟩

/-- S0 halted, with a STEP to come; and TERM, which halts. -/
theorem witness_HaltIsFinal :
    (({ s0 with running := false } : State).Inv ∧ ({ s0 with running := false } : State).life ≠ .uninit ∧
      ∃ t, step (({ s0 with running := false } : State).withFetchWord 32 0x13) = .next t) ∧
    ∃ t, exec .term s0 = .next t ∧ s0.running = true ∧ t.running = false :=
  ⟨⟨⟨by decide, by decide, by decide, by decide⟩, by decide, _, rfl⟩, _, rfl, by decide, by decide⟩

theorem witness_TrapTableOnlyGrows :
    (stops.Inv ∧ stops.life ≠ .uninit ∧
      ∃ t, step (stops.withFetchWord 32 0x11) = .next t ∧ t.trap 0x42 = stops.trap 0x42) ∧
    ∃ t, step { s0 with inputs := [.command ⟨0x4217, 0, 0, [], .host 2⟩] } = .next t ∧
      t.trap 0x42 = some (.host 2) :=
  ⟨⟨stops_inv, by decide, _, rfl, by decide⟩, _, rfl, by decide⟩

theorem witness_ResponsesHoldOnlyListedFields :
    (∃ t, exec (.mread 0 0 []) s0 = .next t ∧ t.response.rdata ≠ none) ∧
    (∃ t, exec .intack s0 = .next t ∧ t.response.vec ≠ none) ∧
    (∃ t, exec .rdstat s0 = .next t ∧ t.response.status ≠ none) :=
  ⟨⟨_, rfl, by decide⟩, ⟨_, rfl, by decide⟩, ⟨_, rfl, by decide⟩⟩

/-- Every step answers a next state here: the hypothesis of `HistoryOnlyGrows`, `ParametersNeverChange`
and, with the invariant, `StepKeepsTheBlockInvariant`. -/
theorem witness_StepKeepsTheBlockInvariant :
    s0.Inv ∧ (∃ t, step (s0.withFetchWord 32 0x13) = .next t ∧ t.history = [.engineStep]) ∧
    (s0.withFetchWord 32 0x13).Inv :=
  ⟨⟨by decide, by decide, by decide, by decide⟩, ⟨_, rfl, by decide⟩,
    by decide, by decide, by decide, by decide⟩

theorem witness_HistoryHasNoEffect :
    (Instr.execat 0 0x7C00).wellFormed = true ∧
    (∃ t, exec (.execat 0 0x7C00) s0 = .next t) ∧
    exec (.execat 0 0x7C00) protectedMode = .refused .execatOutsideRealMode :=
  ⟨by decide, ⟨_, rfl⟩, rfl⟩

/-- A read and a write that would touch the byte at `MAX_ADDRESS`, and a step with a byte there to keep. -/
theorem witness_NoStepLeavesTheArena :
    ((1 : Nat) ≠ 0 ∧ s0.params.maxAddress < 0x100000 + 1) ∧
    (([0xAA] : List Byte) ≠ [] ∧ s0.params.maxAddress < 0x100000 + [0xAA].length) ∧
    (∃ t, step { s0 with inputs := [.hostLoad [(0x100000, 0xAA), (0x500, 0xBB)]] } = .next t ∧
      t.arena = [(0x500, 0xBB)] ∧ s0.params.maxAddress ≤ 0x100000) :=
  ⟨by decide, by decide, _, rfl, by decide, by decide⟩

/-- Two arenas that differ at `MAX_ADDRESS` and nowhere below. -/
theorem witness_NothingOutsideTheArenaIsRead :
    (Instr.repexc 6 0xF000 0xFFF8).wellFormed = true ∧
    (∃ t, exec (.repexc 6 0xF000 0xFFF8) { s0 with answers := [byte 0] } = .next t) ∧
    ∀ x < s0.params.maxAddress, Memory.read [(0x100000, 0xFF)] x = s0.arena.read x := by
  refine ⟨by decide, ⟨_, rfl⟩, ?_⟩
  intro x hx
  have h : x < 0x100000 := hx
  simp [Memory.read, tableLookup, show x ≠ 0x100000 by omega, s0, fresh, State.reset]

end Sys2Proof.Tests
end

/-! ## Scope (spec/00_scope.md) -/

namespace Sys2Proof.Machine

/-! ### What the surroundings do besides issuing commands -/

namespace State

/-- The engine runs exactly while a STEP, EXECAT or REQINT is in progress (R7). -/
theorem engineRuns_iff (s : State) :
    s.inProgress.any Activity.isEngine = true ↔
      .step ∈ s.inProgress ∨ .execat ∈ s.inProgress ∨ .reqint ∈ s.inProgress := by
  rw [List.any_eq_true]
  constructor
  · rintro ⟨act, hmem, hact⟩
    cases act with
    | step => exact .inl hmem
    | execat => exact .inr (.inl hmem)
    | reqint => exact .inr (.inr hmem)
    | init | cleanup | sigint | handler | portRead | portWrite => cases hact
  · rintro (h | h | h) <;> exact ⟨_, h, rfl⟩

theorem engineMoves_running {s : State} (h : s.inProgress.any Activity.isEngine = true)
    (e : Engine) : s.engineMoves e = { s with engine := some e } := if_pos h

theorem engineMoves_idle {s : State} (h : ¬ s.inProgress.any Activity.isEngine = true)
    (e : Engine) : s.engineMoves e = s := if_neg h

@[simp] theorem engineMoves_params (s : State) (e : Engine) :
    (s.engineMoves e).params = s.params := by
  unfold engineMoves; split <;> rfl

@[simp] theorem hostLoad_params (s : State) (image : List Host.Cell) :
    (s.hostLoad image).params = s.params := by
  unfold hostLoad; split <;> rfl

@[simp] theorem startMachine_params (s : State) (inHandle outHandle : Word) :
    (s.startMachine inHandle outHandle).params = s.params := by simp [startMachine]

@[simp] theorem stopMachine_params (s : State) : s.stopMachine.params = s.params :=
  runCleanup_params s cleanupCalls

end State

theorem step_engineMoves {s : State} {e : Engine} {rest : List Input}
    (h : s.inputs = .engineMoves e :: rest) :
    step s = .next (State.engineMoves { s with inputs := rest } e) := by
  simp only [step, h]

/-! ### The parameters -/

theorem effect_params {i : Instr} {s t : State} (h : Effect i s t) : t.params = s.params := by
  cases i with
  | mread => obtain ⟨-, rfl⟩ | ⟨-, -, rfl⟩ := h <;> simp
  | mwrite => obtain ⟨-, rfl⟩ | ⟨-, -, rfl⟩ := h <;> simp
  | intack => obtain ⟨_, rfl⟩ := h; simp
  | repexc => obtain ⟨_, rfl⟩ := h; simp
  | dispbop => obtain rfl | ⟨_, rfl⟩ := h <;> rfl
  | init => obtain ⟨-, -, rfl | rfl⟩ := h <;> simp
  | cleanup => obtain ⟨-, ⟨-, rfl⟩ | ⟨-, rfl⟩⟩ := h <;> simp
  | step => obtain ⟨-, rfl | rfl⟩ := h <;> rfl
  | sigint => obtain ⟨_, rfl, rfl | rfl⟩ := h <;> rfl
  | regbop => obtain ⟨-, rfl⟩ := h; rfl
  | seta20 | piord | piowr | execat | reqint | term | rdstat => cases h; rfl

theorem exec_params {i : Instr} {s t : State} (h : exec i s = .next t) : t.params = s.params := by
  rcases exec_cases h with ⟨-, -, rfl⟩ | ⟨-, -, _, rfl⟩ | ⟨-, -, heff⟩
  · rfl
  · rfl
  · exact effect_params heff

theorem step_params {s t : State} (h : step s = .next t) : t.params = s.params := by
  rcases step_cases h with ⟨-, rfl⟩ | ⟨_, _, _, -, -, hexec⟩ | ⟨_, _, _, -, -, rfl⟩ |
    ⟨_, -, rfl⟩ | ⟨_, _, -, rfl⟩ | ⟨_, _, -, rfl⟩
  case inr.inl => simpa using exec_params hexec
  all_goals simp

/-! ### The obligations -/

/-- Settles O13: a move takes effect exactly where an activity in which the engine runs is in
progress, and those are STEP, EXECAT and REQINT. -/
theorem engineMovesOnlyWhileItRuns : Obligations.EngineMovesOnlyWhileItRuns := by
  intro s e rest hin
  rw [step_engineMoves hin]
  have hruns := State.engineRuns_iff { s with inputs := rest }
  constructor
  · intro hrun
    rw [State.engineMoves_running (hruns.2 hrun)]
  · rintro ⟨hstep, hexecat, hreqint⟩
    rw [State.engineMoves_idle]
    rw [hruns]
    rintro (h | h | h)
    · exact hstep h
    · exact hexecat h
    · exact hreqint h

/-- Settles O56, by cases on the input the step takes and, for a command, on its effect. -/
theorem parametersNeverChange : Obligations.ParametersNeverChange :=
  fun _ _ h => step_params h

end Sys2Proof.Machine

/-! ## State (spec/10_state.md) -/

namespace Sys2Proof.Machine

open State

/-! ### What a command can change, field by field -/

/-- What a command gated on READY leaves of the block: every field it names is unchanged but in the way
said. -/
structure GatedChange (i : Instr) (s t : State) : Prop where
  life : t.life = s.life := by simp
  a20 : t.a20 = s.a20 ∨ ∃ b, i = .seta20 b ∧ t.a20 = b := by simp
  running : t.running = s.running ∨
    t.running = false ∧ (i.opcode = .term ∨ i.opcode = .repexc) := by simp
  arena : ∃ a vs, (vs = [] ∨ a + vs.length ≤ s.params.maxAddress) ∧
    t.arena = s.arena.writeBytes a vs := by exact ⟨0, [], .inl rfl, by simp⟩
  traps : t.traps = s.traps ∨ ∃ id : Byte, ∃ h ∈ s.params.handlers,
    t.traps = tableInsert id.toNat h s.traps := by simp
  engine : t.engine.isSome = s.engine.isSome := by simp
  progress : t.inProgress = s.inProgress ∨ ∃ act : Activity, act.mayRunWhileReady = true ∧
    act.isCleanup = false ∧ t.inProgress = act :: s.inProgress := by simp
  history : ∃ events, t.history = s.history ++ events := by simp

theorem afterFill_history (s : State) (i : Range) :
    ∃ events, (s.afterFill i).history = s.history ++ events := by
  rw [afterFill_eq]; simp

theorem deviceForward_history (s : State) (a : Nat) (payload : List Byte) (i : Range) :
    ∃ events, ((s.afterStore a payload).deviceForward a payload i).history = s.history ++ events := by
  rw [deviceForward_eq]; simp

/-- The device fills a part of the request's range, which lies in the arena. -/
theorem afterFill_writesInside {s : State} {a n : Nat} (q : Range)
    (h : a + n < s.params.maxAddress) :
    ∃ b vs, (vs = [] ∨ b + vs.length ≤ s.params.maxAddress) ∧
      (s.afterFill ((requestRange a n).isect q)).arena = s.arena.writeBytes b vs := by
  rw [afterFill_arena]
  split
  · rename_i hne
    have hin := isect_within a n q hne
    exact ⟨_, _, .inr (by rw [length_answerBytes]; omega), rfl⟩
  · exact ⟨0, [], .inl rfl, rfl⟩

theorem Effect.gatedChange {i : Instr} {s t : State} (hg : gated i) (h : Effect i s t) :
    GatedChange i s t := by
  obtain ⟨hinit, hcleanup, hrdstat⟩ := hg
  cases i with
  | mread =>
    obtain ⟨-, rfl⟩ | ⟨-, hin, rfl⟩ := h
    · exact {}
    · exact { arena := afterFill_writesInside _ hin, history := afterFill_history _ _ }
  | mwrite =>
    obtain ⟨-, rfl⟩ | ⟨-, hin, rfl⟩ := h
    · exact {}
    · exact {
        arena := ⟨_, _, hin.imp_left List.eq_nil_of_length_eq_zero, by simp⟩
        history := deviceForward_history _ _ _ _ }
  | seta20 => cases h; exact {}
  | intack => obtain ⟨_, rfl⟩ := h; exact {}
  | repexc => obtain ⟨_, rfl⟩ := h; exact { running := .inr ⟨rfl, .inr rfl⟩ }
  | dispbop =>
    obtain rfl | ⟨_, rfl⟩ := h
    · exact {}
    · exact { progress := .inr ⟨_, rfl, rfl, rfl⟩ }
  | step =>
    obtain ⟨-, rfl | rfl⟩ := h
    · exact {}
    · exact { progress := .inr ⟨_, rfl, rfl, rfl⟩ }
  | sigint =>
    obtain ⟨_, rfl, rfl | rfl⟩ := h
    · exact { progress := .inr ⟨_, rfl, rfl, rfl⟩ }
    · exact {}
  | term => cases h; exact { running := .inr ⟨rfl, .inl rfl⟩ }
  | regbop => obtain ⟨hknown, rfl⟩ := h; exact { traps := .inr ⟨_, _, hknown, rfl⟩ }
  | piord | piowr | execat | reqint => cases h; exact { progress := .inr ⟨_, rfl, rfl, rfl⟩ }
  | init => exact absurd rfl hinit
  | cleanup => exact absurd rfl hcleanup
  | rdstat => exact absurd rfl hrdstat

/-- Everything a command that answers a next state can have done: answered, raised a contract fault, or its
effect, that of INIT and of CLEANUP as the model gives it. -/
theorem exec_changes {i : Instr} {s t : State} (h : exec i s = .next t) :
    (∃ c r, t = { s with cfault := c, response := r }) ∨
    (s.life = .ready ∧ GatedChange i s t) ∨
    (∃ x y, i = .init x y ∧ s.life = .uninit ∧ s.inProgress = [] ∧
      (t = s.startMachine x y ∨ t = (s.consume 1).respond { ok := some false })) ∨
    (i = .cleanup ∧ s.inProgress = [] ∧ ((s.life = .ready ∧ t = s.stopMachine) ∨
      (s.life = .uninit ∧ t = { s with life := .released, response := {} }))) := by
  rcases exec_cases h with ⟨-, -, rfl⟩ | ⟨-, -, r, rfl⟩ | ⟨-, hready, heff⟩
  · exact .inl ⟨_, _, rfl⟩
  · exact .inl ⟨_, _, rfl⟩
  · by_cases hg : gated i
    · exact .inr (.inl ⟨(hready hg).1, heff.gatedChange hg⟩)
    · cases i
      case init x y => exact .inr (.inr (.inl ⟨x, y, rfl, heff⟩))
      case cleanup => exact .inr (.inr (.inr ⟨rfl, heff⟩))
      case rdstat => cases heff; exact .inl ⟨_, _, rfl⟩
      all_goals simp [gated, Instr.opcode] at hg

/-! ### The block's invariant, by lifecycle -/

/-- The invariant where the machine is READY, and nothing else. -/
structure State.ReadyOk (s : State) : Prop where
  ready : s.life = .ready
  params : s.params.wf
  arena : s.ArenaOk
  engine : s.engine.isSome = true
  progress : ∀ act ∈ s.inProgress, act.mayRunWhileReady = true
  outermost : ∀ act ∈ s.inProgress.dropLast, act.isCleanup = false
  sorted : tableSorted s.traps
  known : ∀ c ∈ s.traps, c.1 < 256 ∧ (c.2 = .debugBreak ∨ c.2 ∈ s.params.handlers)
  registered : (s.trap s.params.debugBopId).isSome = true

theorem State.ReadyOk.inv {s : State} (h : s.ReadyOk) : s.Inv := by
  have hready := h.ready
  refine ⟨h.params, h.arena, ⟨absurd hready, fun _ => h.engine, ?_, ?_, ?_, ?_, ?_⟩,
    h.sorted, h.known, fun _ _ => h.registered⟩
  · simp [hready]
  · simp [hready]
  · simp [hready]
  · exact fun _ => ⟨h.progress, h.outermost⟩
  · simp [hready]

theorem State.Inv.readyOk {s : State} (h : s.Inv) (hready : s.life = .ready) : s.ReadyOk := by
  obtain ⟨hp, ha, ⟨-, hengine, -, -, -, hprogress, -⟩, hsorted, hknown, hreg⟩ := h
  obtain ⟨hrun, houtermost⟩ := hprogress hready
  exact ⟨hready, hp, ha, hengine hready, hrun, houtermost, hsorted, hknown,
    hreg (by simp [hready]) (hengine hready)⟩

theorem State.arenaOk_of_empty {s : State} (h : s.arena = []) : s.ArenaOk :=
  ⟨h ▸ Memory.wf_nil, by simp [h]⟩

theorem State.Inv.progressOk {s : State} (h : s.Inv) : s.ProgressOk := by
  obtain ⟨-, -, ⟨-, -, -, -, hprogress⟩, -⟩ := h
  exact hprogress

/-- INIT about to make `calls` of its calls, with no other command in progress: the machine is as at
creation but for what the calls already made brought about. -/
structure State.InitAt (s : State) (calls : List Call) : Prop where
  uninit : s.life = .uninit
  params : s.params.wf
  arena : s.arena = []
  a20 : s.a20 = s.params.a20Reset
  running : s.running = true
  stepIssued : s.stepIssued = false
  alone : s.inProgress = []
  engine : s.engine.isSome = true ∨ calls.head? = some .engineConstruct
  sorted : tableSorted s.traps
  known : ∀ c ∈ s.traps, c.1 < 256 ∧ (c.2 = .debugBreak ∨ c.2 ∈ s.params.handlers)
  registers : .enableInterrupts ∈ calls ∨ s.traps = [(s.params.debugBopId.toNat, .debugBreak)]

/-- The invariant where the machine is UNINIT and an INIT stands in progress. -/
theorem State.InitAt.begin_inv {s : State} {left : List Call} (h : s.InitAt left)
    (hengine : s.engine.isSome = true) : (s.begin (.init left)).Inv := by
  have huninit := h.uninit
  have hregisters : (Activity.init left).stillEnables = true ∨
      s.traps = [(s.params.debugBopId.toNat, .debugBreak)] := by
    simpa [Activity.stillEnables] using h.registers
  refine ⟨h.params, arenaOk_of_empty h.arena, ⟨fun _ => h.arena, ?_,
    fun _ => ⟨h.a20, h.running, h.stepIssued⟩, ?_, fun _ => ?_, ?_, ?_⟩,
    h.sorted, h.known, absurd huninit⟩
  · simp [huninit]
  · simp
  · simpa [h.alone, hengine, Activity.isInit] using hregisters
  · simp [huninit]
  · simp [huninit]

theorem State.InitAt.finish_readyOk {s : State} (h : s.InitAt []) : s.finishInit.ReadyOk := by
  have htraps : s.traps = [(s.params.debugBopId.toNat, .debugBreak)] := by simpa using h.registers
  exact {
    ready := rfl
    params := h.params
    arena := arenaOk_of_empty h.arena
    engine := by simpa using h.engine
    progress := by simp [h.alone]
    outermost := by simp [h.alone]
    sorted := h.sorted
    known := h.known
    registered := by simp [trap, htraps, tableLookup] }

/-- The debugger break alone is a trap table the invariant allows. -/
theorem debugBreak_alone_ok (p : Params) :
    tableSorted [(p.debugBopId.toNat, Handle.debugBreak)] ∧
    ∀ c ∈ [(p.debugBopId.toNat, Handle.debugBreak)],
      c.1 < 256 ∧ (c.2 = .debugBreak ∨ c.2 ∈ p.handlers) :=
  ⟨by simp [tableSorted], by simpa using p.debugBopId.isLt⟩

theorem State.makeCall_engine_isSome_of_head {s : State} {c : Call} {cs : List Call}
    (h : s.engine.isSome = true ∨ (c :: cs).head? = some .engineConstruct) :
    (s.makeCall c).engine.isSome = true := by
  rcases h with h | h
  · exact makeCall_engine_isSome s c h
  · cases h; rfl

theorem State.InitAt.makeCall {s : State} {c : Call} {cs : List Call} (h : s.InitAt (c :: cs)) :
    (s.makeCall c).InitAt cs := by
  have hframe : ∀ {traps}, (s.makeCall c).traps = traps → tableSorted traps →
      (∀ d ∈ traps, d.1 < 256 ∧ (d.2 = .debugBreak ∨ d.2 ∈ s.params.handlers)) →
      (.enableInterrupts ∈ cs ∨ traps = [(s.params.debugBopId.toNat, .debugBreak)]) →
      (s.makeCall c).InitAt cs := by
    rintro _ rfl hsorted hknown hregisters
    exact {
      uninit := by simp [h.uninit]
      params := by simpa using h.params
      arena := by simp [h.arena]
      a20 := by simp [h.a20]
      running := by simp [h.running]
      stepIssued := by simp [h.stepIssued]
      alone := by simp [h.alone]
      engine := .inl (makeCall_engine_isSome_of_head h.engine)
      sorted := hsorted
      known := by simpa using hknown
      registers := by simpa using hregisters }
  by_cases hc : c = .enableInterrupts
  · subst hc
    obtain ⟨hsorted, hknown⟩ := debugBreak_alone_ok s.params
    exact hframe rfl hsorted hknown (.inr rfl)
  · exact hframe (makeCall_traps s hc) h.sorted h.known
      (h.registers.imp_left fun hmem => (List.mem_cons.1 hmem).resolve_left (Ne.symm hc))

/-- What holds of the state and the calls still to make, and goes on to hold call after call, gives what
holds where `runCalls` stops. -/
theorem State.runCalls_induction {frame : List Call → Activity} {finish : State → State}
    (P : State → List Call → Prop) {Q : State → Prop}
    (hcall : ∀ s c cs, P s (c :: cs) → P (s.makeCall c) cs)
    (hbegin : ∀ s c cs, P s (c :: cs) → Q ((s.makeCall c).begin (frame cs)))
    (hfinish : ∀ s, P s [] → Q (finish s)) {cs : List Call} {s : State} (h : P s cs) :
    Q (runCalls frame finish cs s) := by
  induction cs generalizing s with
  | nil => exact hfinish s h
  | cons c cs ih =>
    simp only [runCalls]
    split
    · exact hbegin s c cs h
    · exact ih (hcall s c cs h)

theorem State.InitAt.runInit_inv {s : State} {calls : List Call} (h : s.InitAt calls) :
    (s.runInit calls).Inv :=
  runCalls_induction InitAt (fun _ _ _ h => h.makeCall)
    (fun _ _ _ h => h.makeCall.begin_inv (makeCall_engine_isSome_of_head h.engine))
    (fun _ h => h.finish_readyOk.inv) h

/-- The INIT that the invariant allows in progress: alone, on a machine before INIT. -/
theorem State.Inv.initAt {s : State} {left : List Call} {outer : List Activity} (h : s.Inv)
    (hin : s.inProgress = .init left :: outer) :
    outer = [] ∧ State.InitAt { s with inProgress := outer } left := by
  obtain ⟨hp, -, ⟨hempty, -, hcreated, -, huninit, hready, hreleased⟩, hsorted, hknown, -⟩ := h
  cases hlife : s.life with
  | ready => simpa [hin, Activity.mayRunWhileReady] using (hready hlife).1
  | released => simpa [hin] using hreleased hlife
  | uninit =>
    obtain ⟨hlen, hact⟩ := huninit hlife
    obtain ⟨-, hengine, hregisters⟩ := hact (.init left) (by simp [hin])
    obtain ⟨ha20, hrunning, hstep⟩ := hcreated hlife
    have houter : outer = [] := by simpa [hin] using hlen
    refine ⟨houter, ?_⟩
    exact {
      uninit := rfl
      params := hp
      arena := hempty (by simp [hlife])
      a20 := ha20
      running := hrunning
      stepIssued := hstep
      alone := houter
      engine := .inl hengine
      sorted := hsorted
      known := hknown
      registers := by simpa [Activity.stillEnables] using hregisters }

/-- An INIT served on a machine that meets the invariant begins with all its calls to make. -/
theorem State.Inv.initAt_initCalls {s : State} (h : s.Inv) (hlife : s.life = .uninit)
    (hin : s.inProgress = []) (x y : Word) :
    ((s.consume 1).setArena []).InitAt (initCalls x y) := by
  obtain ⟨hp, -, ⟨-, -, hcreated, hempty, -⟩, hsorted, hknown, -⟩ := h
  obtain ⟨ha20, hrunning, hstep⟩ := hcreated hlife
  exact ⟨hlife, hp, rfl, ha20, hrunning, hstep, hin, .inr rfl, hsorted, hknown,
    .inl (by simp [initCalls])⟩

/-- CLEANUP about to make `calls` of its calls, with no other command in progress. -/
structure State.CleanupAt (s : State) (calls : List Call) : Prop extends s.ReadyOk where
  alone : s.inProgress = []
  own : calls.all Call.isCleanup = true

theorem State.CleanupAt.makeCall {s : State} {c : Call} {cs : List Call}
    (h : s.CleanupAt (c :: cs)) : (s.makeCall c).CleanupAt cs := by
  obtain ⟨hc, hcs⟩ : c.isCleanup = true ∧ cs.all Call.isCleanup = true := by simpa using h.own
  cases c with
  | deviceCleanup d =>
    exact { h with own := hcs }
  | engineConstruct | deviceInit | inputInit | enableInterrupts => cases hc

theorem State.CleanupAt.begin_readyOk {s : State} {left : List Call} (h : s.CleanupAt left) :
    (s.begin (.cleanup left)).ReadyOk where
  ready := h.ready
  params := h.params
  arena := h.arena
  engine := h.engine
  progress := by simpa [h.alone, Activity.mayRunWhileReady] using h.own
  outermost := by simp [h.alone]
  sorted := h.sorted
  known := h.known
  registered := h.registered

theorem State.CleanupAt.finish_inv {s : State} {calls : List Call} (h : s.CleanupAt calls) :
    s.finishCleanup.Inv :=
  ⟨h.params, arenaOk_of_empty rfl, by simp [LifeOk, ProgressOk, h.alone], h.sorted, h.known,
    fun _ _ => h.registered⟩

theorem State.CleanupAt.runCleanup_inv {s : State} {calls : List Call} (h : s.CleanupAt calls) :
    (s.runCleanup calls).Inv :=
  runCalls_induction CleanupAt (fun _ _ _ h => h.makeCall)
    (fun _ _ _ h => h.makeCall.begin_readyOk.inv) (fun _ h => h.finish_inv) h

/-- The CLEANUP that the invariant allows to return: outermost, on a READY machine. -/
theorem State.Inv.cleanupAt {s : State} {left : List Call} {outer : List Activity} (h : s.Inv)
    (hin : s.inProgress = .cleanup left :: outer) :
    State.CleanupAt { s with inProgress := outer } left := by
  have hlife : s.life = .ready := by
    obtain ⟨huninit, -, hreleased⟩ := h.progressOk
    cases hlife : s.life with
    | ready => rfl
    | uninit => simpa [hin, Activity.isInit] using (huninit hlife).2
    | released => simpa [hin] using hreleased hlife
  have hready := h.readyOk hlife
  have houter : outer = [] := by
    cases outer with
    | nil => rfl
    | cons act acts => simpa [hin, Activity.isCleanup] using hready.outermost (.cleanup left)
  exact { hready with
    progress := by simp [houter]
    outermost := by simp [houter]
    alone := houter
    own := by
      simpa [Activity.mayRunWhileReady] using hready.progress (.cleanup left) (by simp [hin]) }

/-! ### What keeps the invariant -/

/-- Bytes written inside the arena keep it in canonical form and in its bounds. -/
theorem State.ArenaOk.writeBytes {s : State} (h : s.ArenaOk) {a : Nat} {vs : List Byte}
    (hin : vs = [] ∨ a + vs.length ≤ s.params.maxAddress) :
    (s.setArena (s.arena.writeBytes a vs)).ArenaOk :=
  ⟨Memory.wf_writeBytes h.1 a vs, Memory.lt_of_mem_writeBytes h.2 hin⟩

theorem trap_isSome_insert {t : TrapTable} {k j : Nat} (v : Handle)
    (h : (tableLookup j t).isSome = true) : (tableLookup j (tableInsert k v t)).isSome = true := by
  by_cases hj : j = k
  · subst hj; simp
  · rwa [tableLookup_insert_ne hj]

theorem eq_or_mem_of_mem_dropLast_cons {α : Type} {x y : α} {l : List α}
    (h : x ∈ (y :: l).dropLast) : x = y ∨ x ∈ l.dropLast := by
  cases l with
  | nil => cases h
  | cons z l => exact List.mem_cons.1 h

theorem mem_dropLast_cons {α : Type} {x y : α} {l : List α} (h : x ∈ l.dropLast) :
    x ∈ (y :: l).dropLast := by
  cases l with
  | nil => cases h
  | cons z l => exact List.mem_cons_of_mem _ h

theorem GatedChange.readyOk {i : Instr} {s t : State} (h : GatedChange i s t)
    (hp : t.params = s.params) (hs : s.ReadyOk) : t.ReadyOk where
  ready := h.life.trans hs.ready
  params := hp ▸ hs.params
  arena := by
    obtain ⟨a, vs, hin, hwrite⟩ := h.arena
    simpa [ArenaOk, hp, hwrite] using hs.arena.writeBytes hin
  engine := h.engine.trans hs.engine
  progress := by
    obtain hsame | ⟨act, hrun, -, hnew⟩ := h.progress
    · rw [hsame]; exact hs.progress
    · rw [hnew]; exact List.forall_mem_cons.2 ⟨hrun, hs.progress⟩
  outermost := by
    obtain hsame | ⟨act, -, hnot, hnew⟩ := h.progress
    · rw [hsame]; exact hs.outermost
    · rw [hnew]
      intro act' hmem
      rcases eq_or_mem_of_mem_dropLast_cons hmem with rfl | hmem
      · exact hnot
      · exact hs.outermost act' hmem
  sorted := by
    obtain hsame | ⟨id, handler, -, hnew⟩ := h.traps
    · rw [hsame]; exact hs.sorted
    · rw [hnew]; exact tableSorted_insert _ _ hs.sorted
  known := by
    rw [hp]
    obtain hsame | ⟨id, handler, hknown, hnew⟩ := h.traps
    · rw [hsame]; exact hs.known
    · rw [hnew]
      intro c hc
      rcases mem_tableInsert hc with rfl | hc
      · exact ⟨id.isLt, .inr hknown⟩
      · exact hs.known c hc
  registered := by
    have hreg := hs.registered
    unfold trap at hreg ⊢
    rw [hp]
    obtain hsame | ⟨id, handler, -, hnew⟩ := h.traps
    · rwa [hsame]
    · rw [hnew]; exact trap_isSome_insert handler hreg

/-- A CLEANUP before INIT only goes to RELEASED. -/
theorem State.Inv.released_of_uninit {s : State} (h : s.Inv) (hlife : s.life = .uninit)
    (hin : s.inProgress = []) (r : Response) :
    State.Inv { s with life := .released, response := r } := by
  obtain ⟨hp, ha, ⟨hempty, -, -, hcreated, -⟩, hsorted, hknown, -⟩ := h
  obtain ⟨-, -, hengine⟩ := hcreated hlife hin
  have harena := hempty (by simp [hlife])
  exact ⟨hp, ha, by simp [LifeOk, ProgressOk, harena, hin], hsorted, hknown, by simp [hengine]⟩

theorem State.Inv.withInputs {s : State} (h : s.Inv) (rest : List Input) :
    State.Inv { s with inputs := rest } := h

theorem State.Inv.raise {s : State} (h : s.Inv) (r : ContractFault) : (s.raise r).Inv := h

theorem exec_inv {i : Instr} {s t : State} (hs : s.Inv) (h : exec i s = .next t) : t.Inv := by
  rcases exec_changes h with ⟨_, _, rfl⟩ | ⟨hready, hchange⟩ |
    ⟨x, y, rfl, huninit, hin, rfl | rfl⟩ | ⟨rfl, hin, ⟨hready, rfl⟩ | ⟨huninit, rfl⟩⟩
  · exact hs
  · exact (hchange.readyOk (exec_params h) (hs.readyOk hready)).inv
  · exact (hs.initAt_initCalls huninit hin x y).runInit_inv
  · exact hs
  · exact State.CleanupAt.runCleanup_inv ⟨hs.readyOk hready, hin, rfl⟩
  · exact hs.released_of_uninit huninit hin _

/-- A command that completes leaves those it is nested in. -/
theorem State.Inv.completes {s : State} {act : Activity} {outer : List Activity} (h : s.Inv)
    (hin : s.inProgress = act :: outer) (hact : act.isInit = false) :
    State.Inv { s with inProgress := outer } := by
  obtain ⟨huninit, -, hreleased⟩ := h.progressOk
  cases hlife : s.life with
  | uninit =>
    have hinit := ((huninit hlife).2 act (by simp [hin])).1
    rw [hact] at hinit; cases hinit
  | released => simpa [hin] using hreleased hlife
  | ready =>
    have hready := h.readyOk hlife
    have hprogress := hready.progress
    have houtermost := hready.outermost
    rw [hin] at hprogress houtermost
    exact State.ReadyOk.inv { hready with
      ready := rfl
      progress := (List.forall_mem_cons.1 hprogress).2
      outermost := fun act' hmem => houtermost act' (mem_dropLast_cons hmem) }

theorem agentReturns_inv {s : State} (h : s.Inv) : s.agentReturns.Inv := by
  rcases agentReturns_cases s with ⟨-, heq⟩ | ⟨act, outer, hin, heq⟩
  · rwa [heq]
  · rw [heq]
    cases act with
    | init left => exact (h.initAt hin).2.runInit_inv
    | cleanup left => exact (h.cleanupAt hin).runCleanup_inv
    | sigint | step | execat | reqint | handler | portRead | portWrite =>
      exact h.completes hin rfl

/-- The engine runs inside no command that the invariant allows outside READY. -/
theorem State.Inv.ready_of_engineRuns {s : State} (h : s.Inv)
    (hrun : s.inProgress.any Activity.isEngine = true) : s.life = .ready := by
  obtain ⟨huninit, -, hreleased⟩ := h.progressOk
  obtain ⟨act, hmem, hact⟩ := List.any_eq_true.1 hrun
  cases hlife : s.life with
  | ready => rfl
  | released => simp [hreleased hlife] at hmem
  | uninit =>
    have hinit := ((huninit hlife).2 act hmem).1
    cases act <;> simp [Activity.isInit, Activity.isEngine] at hinit hact

theorem engineMoves_inv {s : State} (h : s.Inv) (e : Engine) : (s.engineMoves e).Inv := by
  by_cases hrun : s.inProgress.any Activity.isEngine = true
  · rw [engineMoves_running hrun]
    exact State.ReadyOk.inv { h.readyOk (h.ready_of_engineRuns hrun) with engine := rfl }
  · rwa [engineMoves_idle hrun]

theorem hostLoad_inv {s : State} (h : s.Inv) (image : List Host.Cell) : (s.hostLoad image).Inv := by
  unfold hostLoad
  split
  · rename_i hopen
    have hready := h.readyOk hopen.1
    exact State.ReadyOk.inv { hready with arena := writeImage_ok hready.arena image }
  · exact h

/-! ### The obligations about the invariant -/

/-- Settles O60: every field of the reset state is a literal, but for the free parameters, of which the
invariant asks nothing there. -/
theorem resetMeetsTheBlockInvariant : Obligations.ResetMeetsTheBlockInvariant := by
  unfold Obligations.ResetMeetsTheBlockInvariant
  refine ⟨by decide, ?_, ?_, ?_⟩
  · exact State.arenaOk_of_empty rfl
  · simp [LifeOk, ProgressOk, State.reset]
  · simp [TrapsOk, State.reset, tableSorted]

/-- Settles O59, by cases on the input the step takes: commands by what they can change, the return of an
agent by the activity that goes on, and INIT's and CLEANUP's calls by induction. -/
theorem stepKeepsTheBlockInvariant : Obligations.StepKeepsTheBlockInvariant := by
  intro s t hs h
  rcases step_cases h with ⟨-, rfl⟩ | ⟨_, _, _, -, -, hexec⟩ | ⟨_, _, _, -, -, rfl⟩ |
    ⟨rest, -, rfl⟩ | ⟨e, rest, -, rfl⟩ | ⟨image, rest, -, rfl⟩
  · exact hs
  · exact exec_inv (hs.withInputs _) hexec
  · exact (hs.withInputs _).raise _
  · exact agentReturns_inv (hs.withInputs rest)
  · exact engineMoves_inv (hs.withInputs rest) e
  · exact hostLoad_inv (hs.withInputs rest) image

/-- Settles O15: each field by its value in the reset state. -/
theorem resetIsTheStateAtCreation : Obligations.ResetIsTheStateAtCreation :=
  ⟨rfl, rfl, rfl, rfl, rfl, rfl, rfl, rfl, rfl, rfl, rfl, rfl⟩

/-! ### After a contract fault -/

/-- Once a contract fault is recorded, every command but RDSTAT only clears the response (R28). -/
theorem exec_faulted {i : Instr} {s : State} (hc : s.cfault ≠ none) (hi : i.opcode ≠ .rdstat) :
    exec i s = .next (s.respond {}) := by
  by_cases hg : gated i
  · obtain ⟨body, hbody⟩ := exec_gated hg s
    rw [hbody, whenReady_faulted hc]
  · cases i
    case init => simp only [exec, execInit]; rw [whenMet_faulted hc]
    case cleanup => simp only [exec, execCleanup]; rw [whenMet_faulted hc]
    all_goals simp [gated, Instr.opcode] at hg hi

theorem exec_keeps_cfault {i : Instr} {s t : State} {r : ContractFault} (h : exec i s = .next t)
    (hc : s.cfault = some r) : t.cfault = some r := by
  by_cases hi : i.opcode = .rdstat
  · cases i <;> cases hi
    cases h; exact hc
  · rw [exec_faulted (by simp [hc]) hi] at h
    cases h; exact hc

@[simp] theorem engineMoves_cfault (s : State) (e : Engine) :
    (s.engineMoves e).cfault = s.cfault := by
  unfold engineMoves; split <;> rfl

@[simp] theorem hostLoad_cfault (s : State) (image : List Host.Cell) :
    (s.hostLoad image).cfault = s.cfault := by
  unfold hostLoad; split <;> rfl

/-- Settles O48: the check for a recorded fault comes before every other. -/
theorem afterAContractFaultOnlyRdstatIsServed :
    Obligations.AfterAContractFaultOnlyRdstatIsServed :=
  fun _ _ => exec_faulted

/-- Settles O49: a command is not served, and what the surroundings do leaves the record. -/
theorem contractFaultIsNeverCleared : Obligations.ContractFaultIsNeverCleared := by
  intro s t r hc h
  rcases step_cases h with ⟨-, rfl⟩ | ⟨_, _, _, -, -, hexec⟩ | ⟨_, _, _, -, -, rfl⟩ |
    ⟨_, -, rfl⟩ | ⟨_, _, -, rfl⟩ | ⟨_, _, -, rfl⟩
  · exact hc
  · exact exec_keeps_cfault hexec hc
  all_goals simp [hc]

/-! ### The A20 Gate -/

@[simp] theorem startMachine_a20 (s : State) (x y : Word) : (s.startMachine x y).a20 = s.a20 := by
  simp [startMachine]

@[simp] theorem engineMoves_a20 (s : State) (e : Engine) : (s.engineMoves e).a20 = s.a20 := by
  unfold engineMoves; split <;> rfl

@[simp] theorem hostLoad_a20 (s : State) (image : List Host.Cell) :
    (s.hostLoad image).a20 = s.a20 := by
  unfold hostLoad; split <;> rfl

theorem exec_a20 {i : Instr} {s t : State} (h : exec i s = .next t) :
    t.a20 = s.a20 ∨ ∃ b, i = .seta20 b ∧ t.a20 = b := by
  rcases exec_changes h with ⟨_, _, rfl⟩ | ⟨-, hchange⟩ | ⟨x, y, -, -, -, rfl | rfl⟩ |
    ⟨-, -, ⟨-, rfl⟩ | ⟨-, rfl⟩⟩
  · exact .inl rfl
  · exact hchange.a20
  · exact .inl (startMachine_a20 s x y)
  · exact .inl rfl
  · exact .inl (runCleanup_a20 s _)
  · exact .inl rfl

/-- Settles O50: of what a step can take from the inputs, only SETA20 writes the gate. -/
theorem onlySeta20WritesTheGate : Obligations.OnlySeta20WritesTheGate := by
  refine ⟨fun i s t h => exec_a20 h, fun s t h hne => ?_⟩
  rcases step_cases h with ⟨-, rfl⟩ | ⟨r, rest, i, hin, hdecode, hexec⟩ | ⟨_, _, _, -, -, rfl⟩ |
    ⟨_, -, rfl⟩ | ⟨_, _, -, rfl⟩ | ⟨_, _, -, rfl⟩
  case inr.inl =>
    obtain hsame | ⟨b, rfl, -⟩ := exec_a20 hexec
    · exact absurd hsame hne
    · exact ⟨r, rest, b, hin, hdecode⟩
  all_goals simp at hne

/-! ### The Run State -/

theorem runInit_running (s : State) (cs : List Call) :
    (s.runInit cs).running = s.running ∨ (s.runInit cs).running = true := by
  rcases runCalls_cases .init finishInit cs s with heq | ⟨before, c, left, -, heq⟩
  · exact .inr (by simp [runInit, heq])
  · exact .inl (by simp [runInit, heq])

theorem runCleanup_life (s : State) (cs : List Call) :
    (s.runCleanup cs).life = s.life ∨ (s.runCleanup cs).life = .released := by
  rcases runCalls_cases .cleanup finishCleanup cs s with heq | ⟨before, c, left, -, heq⟩
  · exact .inr (by simp [runCleanup, heq])
  · exact .inl (by simp [runCleanup, heq])

/-- A machine that has been initialized and has halted (R23). -/
abbrev State.Halted (s : State) : Prop := s.running = false ∧ s.life ≠ .uninit

theorem runCleanup_halted {s : State} (h : s.Halted) (cs : List Call) : (s.runCleanup cs).Halted := by
  refine ⟨by simp [h.1], ?_⟩
  rcases runCleanup_life s cs with hlife | hlife
  · rw [hlife]; exact h.2
  · simp [hlife]

theorem GatedChange.halted {i : Instr} {s t : State} (h : GatedChange i s t) (hs : s.Halted) :
    t.Halted := by
  refine ⟨?_, by rw [h.life]; exact hs.2⟩
  obtain hsame | ⟨hhalt, -⟩ := h.running
  · rw [hsame]; exact hs.1
  · exact hhalt

theorem exec_halted {i : Instr} {s t : State} (hs : s.Halted) (h : exec i s = .next t) :
    t.Halted := by
  rcases exec_changes h with ⟨_, _, rfl⟩ | ⟨-, hchange⟩ | ⟨_, _, -, huninit, -, -⟩ |
    ⟨-, -, ⟨-, rfl⟩ | ⟨huninit, -⟩⟩
  · exact hs
  · exact hchange.halted hs
  · exact absurd huninit hs.2
  · exact runCleanup_halted hs _
  · exact absurd huninit hs.2

theorem agentReturns_halted {s : State} (hinv : s.Inv) (hs : s.Halted) : s.agentReturns.Halted := by
  rcases agentReturns_cases s with ⟨-, heq⟩ | ⟨act, outer, hin, heq⟩
  · rwa [heq]
  · rw [heq]
    cases act with
    | init left => exact absurd (hinv.initAt hin).2.uninit hs.2
    | cleanup left => exact runCleanup_halted (s := { s with inProgress := outer }) hs left
    | sigint | step | execat | reqint | handler | portRead | portWrite => exact hs

theorem engineMoves_halted {s : State} (hs : s.Halted) (e : Engine) : (s.engineMoves e).Halted := by
  unfold engineMoves; split <;> exact hs

theorem hostLoad_halted {s : State} (hs : s.Halted) (image : List Host.Cell) :
    (s.hostLoad image).Halted := by
  unfold hostLoad; split <;> exact hs

theorem exec_halts {i : Instr} {s t : State} (h : exec i s = .next t) (hs : s.running = true)
    (ht : t.running = false) : i.opcode = .term ∨ i.opcode = .repexc := by
  have still : t.running ≠ s.running := by simp [hs, ht]
  rcases exec_changes h with ⟨_, _, rfl⟩ | ⟨-, hchange⟩ | ⟨x, y, -, -, -, rfl | rfl⟩ |
    ⟨-, -, ⟨-, rfl⟩ | ⟨-, rfl⟩⟩
  · exact absurd rfl still
  · obtain hsame | ⟨-, hop⟩ := hchange.running
    · exact absurd hsame still
    · exact hop
  · rcases runInit_running ((s.consume 1).setArena []) (initCalls x y) with hsame | htrue
    · exact absurd hsame still
    · exact absurd (ht.symm.trans htrue) (by decide)
  · exact absurd rfl still
  · exact absurd (runCleanup_running s _) still
  · exact absurd rfl still

/-- Settles O51: INIT, which alone starts a machine, is served or goes on only while UNINIT, and of the
commands TERM and REPEXC alone clear the Run State. -/
theorem haltIsFinal : Obligations.HaltIsFinal := by
  refine ⟨fun s t hinv hlife hrun h => ?_, fun _ _ _ h => exec_halts h⟩
  have hs : ∀ rest, State.Halted { s with inputs := rest } := fun _ => ⟨hrun, hlife⟩
  rcases step_cases h with ⟨-, rfl⟩ | ⟨_, _, _, -, -, hexec⟩ | ⟨_, _, _, -, -, rfl⟩ |
    ⟨rest, -, rfl⟩ | ⟨e, rest, -, rfl⟩ | ⟨image, rest, -, rfl⟩
  · exact ⟨hrun, hlife⟩
  · exact exec_halted (hs _) hexec
  · exact ⟨hrun, hlife⟩
  · exact agentReturns_halted (hinv.withInputs rest) (hs rest)
  · exact engineMoves_halted (hs rest) e
  · exact hostLoad_halted (hs rest) image

/-! ### The history -/

theorem startMachine_history (s : State) (x y : Word) :
    ∃ events, (s.startMachine x y).history = s.history ++ events :=
  runCalls_history finishInit_history _ ((s.consume 1).setArena [])

theorem exec_history {i : Instr} {s t : State} (h : exec i s = .next t) :
    ∃ events, t.history = s.history ++ events := by
  rcases exec_changes h with ⟨_, _, rfl⟩ | ⟨-, hchange⟩ | ⟨x, y, -, -, -, rfl | rfl⟩ |
    ⟨-, -, ⟨-, rfl⟩ | ⟨-, rfl⟩⟩
  · exact ⟨[], by simp⟩
  · exact hchange.history
  · exact startMachine_history s x y
  · exact ⟨[], by simp⟩
  · exact runCalls_history finishCleanup_history _ s
  · exact ⟨[], by simp⟩

theorem resume_history (s : State) (act : Activity) :
    ∃ events, (s.resume act).history = s.history ++ events := by
  cases act with
  | init left => exact runCalls_history finishInit_history left s
  | cleanup left => exact runCalls_history finishCleanup_history left s
  | sigint | step | execat | reqint | handler | portRead | portWrite => exact ⟨[], by simp [resume]⟩

theorem agentReturns_history (s : State) :
    ∃ events, s.agentReturns.history = s.history ++ events := by
  rcases agentReturns_cases s with ⟨-, heq⟩ | ⟨act, outer, -, heq⟩
  · exact ⟨[], by simp [heq]⟩
  · rw [heq]; exact resume_history _ act

@[simp] theorem engineMoves_history (s : State) (e : Engine) :
    (s.engineMoves e).history = s.history := by
  unfold engineMoves; split <;> rfl

@[simp] theorem hostLoad_history (s : State) (image : List Host.Cell) :
    (s.hostLoad image).history = s.history := by
  unfold hostLoad; split <;> rfl

/-- Settles O54, by cases on the input the step takes. -/
theorem historyOnlyGrows : Obligations.HistoryOnlyGrows := by
  intro s t h
  rcases step_cases h with ⟨-, rfl⟩ | ⟨_, _, _, -, -, hexec⟩ | ⟨_, _, _, -, -, rfl⟩ |
    ⟨rest, -, rfl⟩ | ⟨_, _, -, rfl⟩ | ⟨_, _, -, rfl⟩
  case inr.inl => simpa using exec_history hexec
  case inr.inr.inr.inl => simpa using agentReturns_history { s with inputs := rest }
  all_goals exact ⟨[], by simp⟩

/-! ### The end of INIT -/

/-- What INIT leaves when it ends, the last of its calls made (R31, R35, R120). -/
structure State.JustStarted (s : State) : Prop where
  status : s.statusWord =
    (if s.params.a20Reset then 7 else 6) ||| (if s.cfault = none then 0 else 16)
  zero : ∀ x, s.arena.read x = 0
  registered : s.trap s.params.debugBopId = some .debugBreak

/-- The STATUS view of a READY machine that has not halted (R31). -/
theorem statusWord_ready {s : State} (hlife : s.life = .ready) (hrun : s.running = true) :
    s.statusWord = (if s.a20 then 7 else 6) ||| (if s.cfault = none then 0 else 16) := by
  rw [statusWord, hlife, hrun]
  rcases hc : s.cfault with _ | r <;> cases s.a20 <;> simp [Life.code]

theorem State.InitAt.finish_justStarted {s : State} (h : s.InitAt []) : s.finishInit.JustStarted := by
  have htraps : s.traps = [(s.params.debugBopId.toNat, .debugBreak)] := by simpa using h.registers
  refine ⟨?_, by simp [h.arena], by simp [trap, htraps, tableLookup]⟩
  rw [statusWord_ready rfl rfl, finishInit_a20, h.a20, finishInit_params]

/-- An INIT that goes on from one of its calls answers OK only at its end. -/
theorem State.InitAt.runInit_justStarted {s : State} {calls : List Call} (h : s.InitAt calls) :
    (s.runInit calls).response.ok = some true → (s.runInit calls).JustStarted :=
  runCalls_induction (Q := fun t => t.response.ok = some true → t.JustStarted) InitAt
    (fun _ _ _ h => h.makeCall) (fun _ _ _ _ hok => by simp at hok)
    (fun _ h _ => h.finish_justStarted) h

/-- An INIT that answers OK was served, its allocation succeeded, and it made its calls. -/
theorem exec_init_ok {s t : State} {x y : Word} (h : exec (.init x y) s = .next t)
    (hok : t.response.ok = some true) :
    s.life = .uninit ∧ s.inProgress = [] ∧ t = s.startMachine x y := by
  rcases exec_cases h with ⟨-, -, rfl⟩ | ⟨-, -, r, rfl⟩ | ⟨-, -, hlife, hin, rfl | rfl⟩
  · simp at hok
  · simp at hok
  · exact ⟨hlife, hin, rfl⟩
  · simp at hok

theorem step_agentReturns {s : State} {rest : List Input} (h : s.inputs = .agentReturns :: rest) :
    step s = .next (State.agentReturns { s with inputs := rest }) := by
  simp only [step, h]

/-- Settles O28: INIT's calls, from the first one or from the one that returns, by induction. -/
theorem successfulInitLeavesTheReadyStatus : Obligations.SuccessfulInitLeavesTheReadyStatus := by
  intro s t hs h hok
  suffices hstart : t.JustStarted ∧ t.params = s.params by
    obtain ⟨⟨hstatus, hzero, hreg⟩, hparams⟩ := hstart
    rw [hparams] at hstatus hreg
    exact ⟨hstatus, hzero, hreg⟩
  rcases h with ⟨x, y, hexec⟩ | ⟨rest, left, hin, hprogress, hstep⟩
  · refine ⟨?_, exec_params hexec⟩
    obtain ⟨hlife, halone, rfl⟩ := exec_init_ok hexec hok
    exact (hs.initAt_initCalls hlife halone x y).runInit_justStarted hok
  · refine ⟨?_, step_params hstep⟩
    have hreturns : t = State.runInit { s with inputs := rest, inProgress := [] } left := by
      rw [step_agentReturns hin] at hstep
      cases hstep
      simp [agentReturns, hprogress, resume]
    rw [hreturns] at hok ⊢
    exact ((hs.withInputs rest).initAt hprogress).2.runInit_justStarted hok

/-! ### Two runs that differ in the arena and in the history -/

/-- A relation of arenas that accesses below `n` cannot tell apart and writes keep. -/
structure ArenaSim (n : Nat) (A : Memory → Memory → Prop) : Prop where
  nil : A [] []
  read : ∀ {m m' x}, A m m' → x < n → m'.read x = m.read x
  writeBytes : ∀ {m m'} a vs, A m m' → A (m.writeBytes a vs) (m'.writeBytes a vs)

/-- The arenas that read the same below `n`. -/
def agreeBelow (n : Nat) (m m' : Memory) : Prop := ∀ x < n, m'.read x = m.read x

theorem arenaSim_eq (n : Nat) : ArenaSim n Eq where
  nil := rfl
  read h _ := by rw [h]
  writeBytes _ _ h := by rw [h]

theorem agreeBelow_write {n : Nat} {m m' : Memory} (h : agreeBelow n m m') (a : Nat) (v : Byte) :
    agreeBelow n (m.write a v) (m'.write a v) := by
  intro x hx
  by_cases hxa : x = a
  · subst hxa; simp
  · rw [Memory.read_write_ne hxa, Memory.read_write_ne hxa, h x hx]

theorem arenaSim_agreeBelow (n : Nat) : ArenaSim n (agreeBelow n) where
  nil _ _ := rfl
  read h := h _
  writeBytes {m m'} a vs h := by
    induction vs generalizing m m' a with
    | nil => exact h
    | cons v vs ih => exact ih (a + 1) (agreeBelow_write h a v)

theorem ArenaSim.readBytes {n : Nat} {A : Memory → Memory → Prop} (hA : ArenaSim n A)
    {m m' : Memory} (h : A m m') {a k : Nat} (hk : k = 0 ∨ a + k ≤ n) :
    m'.readBytes a k = m.readBytes a k := by
  refine List.map_congr_left fun j hj => hA.read h ?_
  have hlt := List.mem_range.1 hj
  omega

/-- The state with another arena and another history. -/
def State.withRest (s : State) (m : Memory) (es : List Event) : State := { s with arena := m, history := es }

/-- The second state is the first with an arena related to the first's, and with the history `q` in place of
`p` before the events both have recorded since. -/
def Twin (A : Memory → Memory → Prop) (p q : List Event) (s s' : State) : Prop :=
  ∃ m es, A s.arena m ∧ s.history = p ++ es ∧ s' = s.withRest m (q ++ es)

/-- Two outcomes that are next states, twins, or the same refusal. -/
inductive TwinRun (A : Memory → Memory → Prop) (p q : List Event) : Result → Result → Prop
  | next {t t' : State} (h : Twin A p q t t') : TwinRun A p q (.next t) (.next t')
  | refused (r : Refusal) : TwinRun A p q (.refused r) (.refused r)

/-- An operation that neither looks at the arena and the history nor writes them. -/
def Blind (f : State → State) : Prop := ∀ s m es, f (s.withRest m es) = (f s).withRest m es

theorem blind_callReentrantFree (n : Nat) : Blind (·.callReentrantFree n) := by
  intro s m es
  show (if s.calledBack n then _ else _) = (if s.calledBack n then _ else _ : State).withRest m es
  split <;> rfl

theorem blind_callEffect (c : Call) : Blind (·.callEffect c) := by
  intro s m es; cases c <;> rfl

namespace Twin
variable {A : Memory → Memory → Prop} {p q : List Event} {s s' : State}

theorem map (h : Twin A p q s s') (f : State → State) (hf : Blind f) : Twin A p q (f s) (f s') := by
  obtain ⟨m, es, harena, hhistory, rfl⟩ := h
  have hself : f s = (f s).withRest s.arena s.history := hf s s.arena s.history
  refine ⟨m, es, ?_, ?_, hf s m _⟩
  · rwa [hself]
  · rwa [hself]

theorem respond (h : Twin A p q s s') (r : Response) : Twin A p q (s.respond r) (s'.respond r) :=
  h.map (·.respond r) fun _ _ _ => rfl

theorem raise (h : Twin A p q s s') (r : ContractFault) : Twin A p q (s.raise r) (s'.raise r) :=
  h.map (·.raise r) fun _ _ _ => rfl

theorem beginActivity (h : Twin A p q s s') (act : Activity) : Twin A p q (s.begin act) (s'.begin act) :=
  h.map (·.begin act) fun _ _ _ => rfl

theorem consume (h : Twin A p q s s') (n : Nat) : Twin A p q (s.consume n) (s'.consume n) :=
  h.map (·.consume n) fun _ _ _ => rfl

theorem updateEngine (h : Twin A p q s s') (f : Engine → Engine) :
    Twin A p q (s.updateEngine f) (s'.updateEngine f) :=
  h.map (·.updateEngine f) fun _ _ _ => rfl

theorem callReentrantFree (h : Twin A p q s s') (n : Nat) :
    Twin A p q (s.callReentrantFree n) (s'.callReentrantFree n) :=
  h.map _ (blind_callReentrantFree n)

theorem recordAll (h : Twin A p q s s') (events : List Event) :
    Twin A p q (s.recordAll events) (s'.recordAll events) := by
  obtain ⟨m, es, harena, hhistory, rfl⟩ := h
  exact ⟨m, es ++ events, harena, by simp [hhistory], by simp [State.recordAll, withRest]⟩

theorem record (h : Twin A p q s s') (e : Event) : Twin A p q (s.record e) (s'.record e) :=
  h.recordAll [e]

theorem setArena (h : Twin A p q s s') {m m' : Memory} (hm : A m m') :
    Twin A p q (s.setArena m) (s'.setArena m') := by
  obtain ⟨_, es, -, hhistory, rfl⟩ := h
  exact ⟨m', es, hm, hhistory, rfl⟩

theorem arena (h : Twin A p q s s') : A s.arena s'.arena := by
  obtain ⟨_, _, harena, -, rfl⟩ := h; exact harena

/-- What does not depend on the arena and the history is the same for twins. -/
theorem same (h : Twin A p q s s') {α : Type} (f : State → α)
    (hf : ∀ s m es, f (s.withRest m es) = f s) : f s' = f s := by
  obtain ⟨m, es, -, -, rfl⟩ := h; exact hf s m _

/-! #### The calls of INIT and CLEANUP -/

theorem makeCall (h : Twin A p q s s') (c : Call) : Twin A p q (s.makeCall c) (s'.makeCall c) :=
  ((h.map _ (blind_callEffect c)).record _).consume _

theorem runCalls {frame : List Call → Activity} {finish : State → State}
    (hfinish : ∀ {s s'}, Twin A p q s s' → Twin A p q (finish s) (finish s')) (cs : List Call)
    (h : Twin A p q s s') :
    Twin A p q (State.runCalls frame finish cs s) (State.runCalls frame finish cs s') := by
  induction cs generalizing s s' with
  | nil => exact hfinish h
  | cons c cs ih =>
    simp only [State.runCalls, h.same (·.calledBack c.answers) fun _ _ _ => rfl]
    split
    · exact (h.makeCall c).beginActivity _
    · exact ih (h.makeCall c)

theorem startMachine (hnil : A [] []) (h : Twin A p q s s') (x y : Word) :
    Twin A p q (s.startMachine x y) (s'.startMachine x y) :=
  runCalls (fun h => h.map finishInit fun _ _ _ => rfl) _ ((h.consume 1).setArena hnil)

theorem stopMachine (hnil : A [] []) (h : Twin A p q s s') :
    Twin A p q s.stopMachine s'.stopMachine :=
  runCalls (fun h => (h.setArena hnil).map
    (fun s => { s with life := .released, response := {} }) fun _ _ _ => rfl) _ h

/-! #### The access pipeline -/

theorem queryVideo (h : Twin A p q s s') : Twin A p q s.queryVideo s'.queryVideo := by
  unfold State.queryVideo
  rw [h.same (·.answerAt 0) fun _ _ _ => rfl, h.same (·.answerAt 1) fun _ _ _ => rfl]
  exact (h.recordAll _).callReentrantFree 2

theorem afterFill {n : Nat} (hA : ArenaSim n A) (h : Twin A p q s s') (i : Range) :
    Twin A p q (s.afterFill i) (s'.afterFill i) := by
  have hv := h.queryVideo
  have hbytes := hv.same (·.answerBytes i.size) fun _ _ _ => rfl
  unfold State.afterFill
  split
  · rw [hbytes]
    exact ((hv.record _).callReentrantFree _).setArena (hA.writeBytes _ _ h.arena)
  · exact hv

theorem afterStore {n : Nat} (hA : ArenaSim n A) (h : Twin A p q s s') (a : Nat)
    (payload : List Byte) : Twin A p q (s.afterStore a payload) (s'.afterStore a payload) :=
  h.queryVideo.setArena (hA.writeBytes _ _ h.arena)

theorem deviceForward (h : Twin A p q s s') (a : Nat) (payload : List Byte) (i : Range) :
    Twin A p q (s.deviceForward a payload i) (s'.deviceForward a payload i) := by
  unfold State.deviceForward
  split
  · exact (h.record _).callReentrantFree 1
  · exact h

theorem readThrough (hA : ArenaSim s.params.maxAddress A) (h : Twin A p q s s') {a n : Nat}
    (hin : a + n < s.params.maxAddress) :
    TwinRun A p q (s.readThrough a n) (s'.readThrough a n) := by
  have hfill := h.afterFill hA ((requestRange a n).isect s.videoRange)
  rw [readThrough_eq hin, readThrough_eq (by rwa [h.same params fun _ _ _ => rfl]),
    h.same videoRange fun _ _ _ => rfl, hA.readBytes hfill.arena (.inr (by omega))]
  exact .next (hfill.respond _)

theorem writeThrough {N : Nat} (hA : ArenaSim N A) (h : Twin A p q s s') {a n : Nat}
    {payload : List Byte} (hlen : payload.length = n) (hin : a + n < s.params.maxAddress) :
    TwinRun A p q (s.writeThrough a n payload) (s'.writeThrough a n payload) := by
  rw [writeThrough_eq hlen hin, writeThrough_eq hlen (by rwa [h.same params fun _ _ _ => rfl]),
    h.same videoRange fun _ _ _ => rfl]
  exact .next (((h.afterStore hA _ _).deviceForward _ _ _).respond {})

theorem reportException (hA : ArenaSim s.params.maxAddress A) (h : Twin A p q s s') (kind : ExcKind)
    (cs ip : Half) :
    TwinRun A p q (s.reportException kind cs ip) (s'.reportException kind cs ip) := by
  rw [reportException_eq, reportException_eq, h.same (·.diagAddress cs ip) fun _ _ _ => rfl,
    h.same (·.diagLength cs ip) fun _ _ _ => rfl,
    hA.readBytes h.arena (by simp only [diagLength]; omega)]
  exact .next (((h.record _).callReentrantFree 1).map (·.halt.respond {})
    fun _ _ _ => rfl)

/-! #### The commands -/

theorem whenMet (h : Twin A p q s s') {checks : List (Bool × ContractFault)}
    {body body' : State → Result}
    (hbody : (∀ c ∈ checks, c.1 = true) → TwinRun A p q (body s) (body' s')) :
    TwinRun A p q (s.whenMet checks body) (s'.whenMet checks body') := by
  have hcfault := h.same cfault fun _ _ _ => rfl
  by_cases hc : s.cfault = none
  · have hc' := hcfault.trans hc
    induction checks with
    | nil => rw [whenMet_nil hc, whenMet_nil hc']; exact hbody (by simp)
    | cons c cs ih =>
      obtain ⟨b, r⟩ := c
      cases b with
      | false => rw [whenMet_fails hc rfl, whenMet_fails hc' rfl]; exact .next (h.raise r)
      | true =>
        rw [whenMet_holds rfl, whenMet_holds rfl]
        exact ih fun hcs => hbody (List.forall_mem_cons.2 ⟨rfl, hcs⟩)
  · rw [whenMet_faulted hc, whenMet_faulted (by rwa [hcfault])]
    exact .next (h.respond {})

theorem whenReady (h : Twin A p q s s') {body body' : State → Result}
    (hbody : TwinRun A p q (body s) (body' s')) :
    TwinRun A p q (s.whenReady body) (s'.whenReady body') := by
  unfold State.whenReady
  rw [h.same life fun _ _ _ => rfl]
  exact h.whenMet fun _ => hbody

/-- A well-formed command that is served or turned away in a state does the same in its twin, and neither
faults. -/
theorem exec_twinRun (hA : ArenaSim s.params.maxAddress A) (h : Twin A p q s s') {i : Instr}
    (hi : i.wellFormed = true) : TwinRun A p q (exec i s) (exec i s') := by
  have hmasked := fun a => h.same (·.maskedAddress a) fun _ _ _ => rfl
  have hparams := h.same params fun _ _ _ => rfl
  have hlife := h.same life fun _ _ _ => rfl
  have hprogress := h.same inProgress fun _ _ _ => rfl
  have hanswer := fun k => h.same (·.answerAt k) fun _ _ _ => rfl
  cases i with
  | mread a n dst =>
    simp only [exec, execMread]
    refine h.whenReady ?_
    simp only [dropped, hmasked, hparams]
    split
    · exact .next (h.respond _)
    · rename_i hin
      exact h.readThrough hA (by omega)
  | mwrite a n payload =>
    simp only [exec, execMwrite]
    refine h.whenReady ?_
    simp only [dropped, hmasked, hparams]
    split
    · exact .next (h.respond _)
    · rename_i hin
      exact h.writeThrough hA (by simpa [Instr.wellFormed] using hi) (by omega)
  | seta20 b =>
    simp only [exec, execSeta20]
    exact h.whenReady (.next (h.map (fun s => (s.setA20 b).respond {}) fun _ _ _ => rfl))
  | intack =>
    simp only [exec, execIntack]
    refine h.whenReady ?_
    simp only [hanswer]
    exact .next (((h.record _).callReentrantFree 1).respond _)
  | repexc n cs ip =>
    simp only [exec, execRepexc]
    refine h.whenReady ?_
    cases excKind n with
    | none => exact .next (h.raise _)
    | some kind => exact h.reportException hA kind cs ip
  | dispbop id ctx =>
    simp only [exec, execDispbop]
    refine h.whenReady ?_
    simp only [h.same (·.trap id) fun _ _ _ => rfl]
    cases s.trap id with
    | none => exact .next (h.raise _)
    | some handler =>
      cases handler with
      | debugBreak => exact .next ((h.record _).respond _)
      | host name => exact .next ((h.record _).beginActivity _)
  | piord port size =>
    simp only [exec, execPiord]
    exact h.whenReady (.next ((h.record _).beginActivity _))
  | piowr port size payload =>
    simp only [exec, execPiowr]
    exact h.whenReady (.next ((h.record _).beginActivity _))
  | init x y =>
    simp only [exec, execInit, hlife, hprogress]
    refine h.whenMet fun _ => ?_
    simp only [hanswer]
    split
    · exact .next (h.startMachine hA.nil x y)
    · exact .next ((h.consume 1).respond _)
  | cleanup =>
    simp only [exec, execCleanup, hprogress]
    refine h.whenMet fun _ => ?_
    simp only [hlife]
    cases s.life with
    | ready => exact .next (h.stopMachine hA.nil)
    | uninit =>
      exact .next (h.map (fun s => { s with life := .released, response := {} }) fun _ _ _ => rfl)
    | released => exact .next (h.raise _)
  | execat x y =>
    simp only [exec, execExecat]
    refine h.whenReady ?_
    simp only [h.same outsideRealMode fun _ _ _ => rfl]
    split
    · exact .refused _
    · exact .next (((h.record _).updateEngine _).beginActivity _)
  | step =>
    have hissued := h.map (fun s => { s with stepIssued := true }) fun _ _ _ => rfl
    simp only [exec, execStep, hlife, hprogress]
    refine h.whenMet fun _ => ?_
    have hrun := h.same running fun _ _ _ => rfl
    by_cases hhalted : s.running = false
    · rw [if_pos hhalted, if_pos (hrun.trans hhalted)]
      exact .next (hissued.respond _)
    · rw [if_neg hhalted, if_neg (by rwa [hrun])]
      exact .next ((hissued.record _).beginActivity _)
  | reqint v =>
    simp only [exec, execReqint]
    exact h.whenReady (.next ((h.record _).beginActivity _))
  | sigint =>
    have hcalled := ((h.record .engineSignalInterrupt).updateEngine
      fun e => { e with pending := true }).consume 1
    simp only [exec, execSigint]
    refine h.whenReady ?_
    simp only [h.same (·.calledBack 1) fun _ _ _ => rfl]
    split
    · exact .next (hcalled.beginActivity _)
    · exact .next (hcalled.respond _)
  | term =>
    simp only [exec, execTerm]
    exact h.whenReady (.next (h.map (·.halt.respond {}) fun _ _ _ => rfl))
  | regbop id handler =>
    simp only [exec, execRegbop]
    refine h.whenReady ?_
    simp only [hparams]
    split
    · exact .next (h.map (fun s => (s.setTrap id handler).respond {}) fun _ _ _ => rfl)
    · exact .next (h.raise _)
  | rdstat =>
    simp only [exec_rdstat, h.same statusWord fun _ _ _ => rfl]
    exact .next (h.respond _)

end Twin

theorem twin_self (s : State) : Twin Eq s.history s.history s s :=
  ⟨s.arena, [], rfl, by simp, by simp [withRest]⟩

/-- Settles O55: with another history in place of the old one, the command's run is a twin of its run. -/
theorem historyHasNoEffect : Obligations.HistoryHasNoEffect := by
  intro i s other hi
  have htwin : Twin Eq s.history other s { s with history := other } :=
    ⟨s.arena, [], rfl, by simp, by simp [withRest]⟩
  have hrun := htwin.exec_twinRun (arenaSim_eq _) hi
  generalize exec i s = o, exec i { s with history := other } = o' at hrun ⊢
  cases hrun with
  | @next t _ ht =>
    obtain ⟨_, events, rfl, hhistory, rfl⟩ := ht
    exact .inl ⟨t, events, rfl, hhistory, rfl⟩
  | refused r => exact .inr ⟨r, rfl, rfl⟩

/-- Settles O58: arenas that read the same inside give twin runs. -/
theorem nothingOutsideTheArenaIsRead : Obligations.NothingOutsideTheArenaIsRead := by
  intro i s t m hi hm ht
  have htwin : Twin (agreeBelow s.params.maxAddress) s.history s.history s { s with arena := m } :=
    ⟨m, [], hm, by simp, by simp [withRest]⟩
  have hrun := htwin.exec_twinRun (arenaSim_agreeBelow _) hi
  rw [ht] at hrun
  generalize exec i { s with arena := m } = o at hrun ⊢
  cases hrun with
  | next h =>
    obtain ⟨m', events, harena, hhistory, rfl⟩ := h
    exact ⟨_, rfl, rfl, hhistory.symm, rfl, harena⟩

/-! ### The arena's bounds -/

theorem withData_wellFormed {r : Request} {i j : Instr} (h : withData r i = .ok j)
    (hi : r.data.length = r.l.toNat → i.wellFormed = true) : j.wellFormed = true := by
  unfold withData at h
  split at h
  · cases h; exact hi ‹_›
  · cases h

theorem withPort_ok {r : Request} {o : Except IllegalEncoding Instr} {j : Instr}
    (h : withPort r o = .ok j) : o = .ok j := by
  unfold withPort at h
  split at h
  · exact h
  · cases h

theorem assembleOperands_wellFormed {r : Request} {o : Opcode} {i : Instr}
    (h : assembleOperands r o = .ok i) : i.wellFormed = true := by
  cases o with
  | mread | mwrite => exact withData_wellFormed h (by simp [Instr.wellFormed])
  | piowr => exact withData_wellFormed (withPort_ok h) (by simp [Instr.wellFormed])
  | piord => cases withPort_ok h; rfl
  | seta20 | intack | repexc | dispbop | init | cleanup | execat | step | reqint | sigint | term
  | regbop | rdstat => cases h; rfl

theorem decode_wellFormed {r : Request} {i : Instr} (h : decode r = .ok i) : i.wellFormed = true := by
  unfold decode at h
  split at h
  · cases h
  · exact assembleOperands_wellFormed h

theorem exec_ne_fault {i : Instr} (hi : i.wellFormed = true) (s : State) (f : Fault) :
    exec i s ≠ .fault f := by
  intro h
  have hrun := (twin_self s).exec_twinRun (arenaSim_eq _) hi
  rw [h] at hrun
  cases hrun

theorem step_ne_fault (s : State) (f : Fault) : step s ≠ .fault f := by
  unfold step
  split
  · simp
  · split
    · exact exec_ne_fault (decode_wellFormed ‹_›) _ f
    · simp
  all_goals simp

theorem copyOut_outside {s : State} {a n : Nat} (hn : n ≠ 0) (h : s.params.maxAddress < a + n) :
    s.copyOut a n = .error .outsideArena := if_neg (by omega)

theorem copyIn_outside {s : State} {a : Nat} {bytes : List Byte} (hb : bytes ≠ [])
    (h : s.params.maxAddress < a + bytes.length) : s.copyIn a bytes = .error .outsideArena := by
  have hlen := List.length_pos_iff.2 hb
  exact if_neg (by omega)

/-- Nothing is listed, or the byte reads as before. -/
abbrev KeepsByte (s t : State) (x : Nat) : Prop := t.arena = [] ∨ t.arena.read x = s.arena.read x

theorem GatedChange.keepsByte {i : Instr} {s t : State} (h : GatedChange i s t) {x : Nat}
    (hx : s.params.maxAddress ≤ x) : KeepsByte s t x := by
  obtain ⟨a, vs, rfl | hin, hwrite⟩ := h.arena
  · exact .inr (by rw [hwrite, Memory.writeBytes_nil])
  · exact .inr (by rw [hwrite, Memory.read_writeBytes_outside (.inr (hin.trans hx))])

theorem runCleanup_arena (s : State) (cs : List Call) :
    (s.runCleanup cs).arena = [] ∨ (s.runCleanup cs).arena = s.arena := by
  rcases runCalls_cases .cleanup finishCleanup cs s with heq | ⟨before, c, left, -, heq⟩
  · exact .inl (by simp [runCleanup, heq])
  · exact .inr (by simp [runCleanup, heq])

theorem runCleanup_keepsByte (s : State) (cs : List Call) (x : Nat) :
    KeepsByte s (s.runCleanup cs) x :=
  (runCleanup_arena s cs).imp_right fun h => by rw [h]

theorem exec_keepsByte {i : Instr} {s t : State} (h : exec i s = .next t) {x : Nat}
    (hx : s.params.maxAddress ≤ x) : KeepsByte s t x := by
  rcases exec_changes h with ⟨_, _, rfl⟩ | ⟨-, hchange⟩ | ⟨_, _, -, -, -, rfl | rfl⟩ |
    ⟨-, -, ⟨-, rfl⟩ | ⟨-, rfl⟩⟩
  · exact .inr rfl
  · exact hchange.keepsByte hx
  · exact .inl (by simp [startMachine])
  · exact .inr rfl
  · exact runCleanup_keepsByte s _ x
  · exact .inr rfl

theorem agentReturns_keepsByte (s : State) (x : Nat) : KeepsByte s s.agentReturns x := by
  rcases agentReturns_cases s with ⟨-, heq⟩ | ⟨act, outer, -, heq⟩
  · exact .inr (by rw [heq])
  · rw [heq]
    cases act with
    | cleanup left => exact runCleanup_keepsByte { s with inProgress := outer } left x
    | init | sigint | step | execat | reqint | handler | portRead | portWrite =>
      exact .inr (by simp [resume])

theorem writeImage_read_outside (s : State) (image : List Host.Cell) {x : Nat}
    (hx : s.params.maxAddress ≤ x) : (s.writeImage image).read x = s.arena.read x := by
  unfold writeImage
  generalize s.arena = m
  induction image generalizing m with
  | nil => rfl
  | cons c image ih =>
    rw [List.foldl_cons, ih]
    split
    · exact Memory.read_write_ne (by omega) m c.2
    · rfl

theorem hostLoad_keepsByte (s : State) (image : List Host.Cell) {x : Nat}
    (hx : s.params.maxAddress ≤ x) : KeepsByte s (s.hostLoad image) x := by
  unfold hostLoad
  split
  · exact .inr (writeImage_read_outside s image hx)
  · exact .inr rfl

@[simp] theorem engineMoves_arena (s : State) (e : Engine) : (s.engineMoves e).arena = s.arena := by
  unfold engineMoves; split <;> rfl

/-- Settles O57: the accesses by their check, the faults by the twin runs of well-formed commands, and the
bytes outside by cases on the input the step takes. -/
theorem noStepLeavesTheArena : Obligations.NoStepLeavesTheArena := by
  refine ⟨fun _ _ _ => copyOut_outside, fun _ _ _ => copyIn_outside, step_ne_fault, ?_⟩
  intro s t x h hx
  rcases step_cases h with ⟨-, rfl⟩ | ⟨_, _, _, -, -, hexec⟩ | ⟨_, _, _, -, -, rfl⟩ |
    ⟨rest, -, rfl⟩ | ⟨_, _, -, rfl⟩ | ⟨image, rest, -, rfl⟩
  case inr.inl => exact exec_keepsByte hexec hx
  case inr.inr.inr.inl => exact agentReturns_keepsByte { s with inputs := rest } x
  case inr.inr.inr.inr.inr => exact hostLoad_keepsByte { s with inputs := rest } image hx
  all_goals exact .inr (by simp)

end Sys2Proof.Machine

/-! ## Memory (spec/20_memory.md) -/

namespace Sys2Proof.Machine

open State

/-! ### A command from the inputs -/

theorem step_command {s : State} {r : Request} {rest : List Input} {i : Instr}
    (hin : s.inputs = .command r :: rest) (hdecode : decode r = .ok i) :
    step s = exec i { s with inputs := rest } := by
  simp only [step, hin, hdecode]

/-! ### Accesses outside the video region -/

/-- A request none of whose addresses lies in a range does not meet the range. -/
theorem isect_empty {a n : Nat} {q : Range} (h : ∀ x, a ≤ x → x < a + n → ¬ q.holds x) :
    ¬ ((requestRange a n).isect q).nonempty := by
  intro hmeet
  simp only [Range.nonempty, Range.isect, requestRange] at hmeet
  exact h (max a q.lo) (by omega) (by omega) ⟨by omega, by omega⟩

/-- What a write that is not dropped leaves of what a later access looks at. -/
theorem exec_mwrite_stores {s t : State} (hr : s.Ready) {address length : Word} {payload : List Byte}
    (hlen : payload.length = length.toNat) (hkept : ¬ s.dropped .write address length)
    (h : exec (.mwrite address length payload) s = .next t) :
    t.life = .ready ∧ t.params = s.params ∧ t.maskedAddress address = s.maskedAddress address ∧
      t.arena = s.arena.writeBytes (s.maskedAddress address) payload := by
  rw [exec_mwrite_served hr payload hkept, writeThrough_eq hlen (by omega)] at h
  cases h
  simp [maskedAddress, hr.1]

/-- A read that does not meet the video region answers the arena's bytes, and only samples the region's
bounds (R104). -/
theorem exec_mread_outsideVideo {s : State} (hr : s.Ready) {address length : Word} (dst : List Byte)
    (hkept : ¬ s.dropped .read address length)
    (hvideo : ¬ ((requestRange (s.maskedAddress address) length.toNat).isect s.videoRange).nonempty) :
    exec (.mread address length dst) s = .next (s.queryVideo.respond
      { rdata := some (s.arena.readBytes (s.maskedAddress address) length.toNat) }) := by
  have hfill : s.afterFill ((requestRange (s.maskedAddress address) length.toNat).isect s.videoRange) =
      s.queryVideo := if_neg hvideo
  rw [exec_mread_served hr dst hkept, readThrough_eq (by omega), hfill, queryVideo_arena]

/-! ### The obligations -/

/-- Settles O9: it is the model's equation for a step that takes a command. -/
theorem stepRunsTheDecodedCommand : Obligations.StepRunsTheDecodedCommand :=
  fun _ _ _ _ => step_command

/-- Settles O21: after the write the arena holds the payload at the masked address, the read has the same
masked address and is in range as well, and the device fills none of it. -/
theorem readAfterWriteAnswersThePayload : Obligations.ReadAfterWriteAnswersThePayload := by
  intro s t address length dst payload hr hlen hkept hwrite hcfault hvideo
  obtain ⟨hlife, hparams, hmasked, harena⟩ := exec_mwrite_stores hr hlen hkept hwrite
  have hread : ¬ t.dropped .read address length := by
    simp only [dropped, hmasked, hparams, reduceCtorEq, false_and, or_false]
    omega
  have hbytes : t.arena.readBytes (t.maskedAddress address) length.toNat = payload := by
    rw [hmasked, harena, ← hlen, Memory.readBytes_writeBytes]
  have hexec := exec_mread_outsideVideo ⟨hlife, hcfault⟩ dst hread
    (isect_empty (by rw [hmasked]; exact hvideo))
  rw [hbytes] at hexec
  exact ⟨_, hexec, rfl, queryVideo_arena t⟩

end Sys2Proof.Machine

/-! ## Encoding (spec/30_encoding.md) -/

namespace Sys2Proof

open Sys2Proof.Machine (decode_wellFormed)

/-! ### The checks of a row's operands (R87) -/

theorem withData_eq_ok {r : Request} {i j : Instr} :
    withData r i = .ok j ↔ r.data.length = r.l.toNat ∧ i = j := by
  by_cases hdata : r.data.length = r.l.toNat <;> simp [withData, hdata]

theorem withPort_eq_ok {r : Request} {o : Except IllegalEncoding Instr} {j : Instr} :
    withPort r o = .ok j ↔ highHalf r.a = 0 ∧ o = .ok j := by
  unfold withPort
  split
  · exact (and_iff_right ‹_›).symm
  · exact ⟨nofun, fun h => absurd h.1 ‹_›⟩

/-- A request carries a command where its word selects a row and the row's operands pass their checks. -/
theorem decode_eq_ok {r : Request} {i : Instr} :
    decode r = .ok i ↔ ∃ o : Opcode, o.selects r.cmd = true ∧ assembleOperands r o = .ok i := by
  simp only [← opcodeOf_eq_some]
  unfold decode
  cases opcodeOf r.cmd <;> simp

/-! ### Decoding what was encoded -/

/-- The encoder's word for a command selects the command's own row. -/
theorem encode_selects (i : Instr) : i.opcode.selects (encode i).cmd = true := by
  rw [← opcodeOf_eq_some]
  cases i with
  | mread a n d => exact Laws.RowMatch.mread a n d
  | mwrite a n d => exact Laws.RowMatch.mwrite a n d
  | seta20 b => exact Laws.RowMatch.seta20 b
  | intack => exact Laws.RowMatch.intack
  | repexc n x y => exact Laws.RowMatch.repexc n x y
  | dispbop id c => exact Laws.RowMatch.dispbop id c
  | piord p n => exact Laws.RowMatch.piord p n
  | piowr p n d => exact Laws.RowMatch.piowr p n d
  | init x y => exact Laws.RowMatch.init x y
  | cleanup => exact Laws.RowMatch.cleanup
  | execat x y => exact Laws.RowMatch.execat x y
  | step => exact Laws.RowMatch.step
  | reqint v => exact Laws.RowMatch.reqint v
  | sigint => exact Laws.RowMatch.sigint
  | term => exact Laws.RowMatch.term
  | regbop id h => exact Laws.RowMatch.regbop id h
  | rdstat => exact Laws.RowMatch.rdstat

/-- The operands the encoder writes are those the decoder reads for the command's row. -/
theorem assembleOperands_encode {i : Instr} (h : i.wellFormed = true) :
    assembleOperands (encode i) i.opcode = .ok i := by
  cases i with
  | mread | mwrite => exact withData_eq_ok.2 ⟨beq_iff_eq.1 h, rfl⟩
  | piord p n =>
    exact withPort_eq_ok.2 ⟨highHalf_packHalves 0 p, by simp [encode, bareRequest]⟩
  | piowr p n d =>
    refine withPort_eq_ok.2 ⟨highHalf_packHalves 0 p, withData_eq_ok.2 ⟨beq_iff_eq.1 h, ?_⟩⟩
    simp [encode, bareRequest]
  | seta20 b => cases b <;> simp [assembleOperands, encode, bareRequest, Instr.opcode]
  | repexc | dispbop | execat | reqint | regbop =>
    simp [assembleOperands, encode, bareRequest, Instr.opcode]
  | init | intack | cleanup | step | sigint | term | rdstat => rfl

/-- Settles O1: the word selects the command's row, and the row's operands read back. -/
theorem decodeOfEncodeIsTheCommand : Obligations.DecodeOfEncodeIsTheCommand :=
  fun i h => decode_eq_ok.2 ⟨i.opcode, encode_selects i, assembleOperands_encode h⟩

/-- Settles O3: the opcode map finds every row that selects the word, and it finds one. -/
theorem opcodeRowsNeverOverlap : Obligations.OpcodeRowsNeverOverlap := by
  intro cmd o o' h h'
  rw [← opcodeOf_eq_some] at h h'
  exact Option.some.inj (h.symm.trans h')

/-! ### Encoding what was decoded -/

@[simp] theorem opField_commandWord (o : Opcode) (imm : Byte) : opField (commandWord o imm) = o.code := by
  unfold opField commandWord
  ext i hi
  simp [show i < 32 by omega, hi]

@[simp] theorem rsvField_commandWord (o : Opcode) (imm : Byte) : rsvField (commandWord o imm) = 0 := by
  unfold rsvField commandWord
  ext i hi
  simp [BitVec.getLsbD_of_ge imm (16 + i - 8) (by omega), BitVec.getLsbD_of_ge o.code (16 + i) (by omega)]

/-- A word that a row selects is the row's command word with the word's own `IMM8`. -/
theorem commandWord_immField {o : Opcode} {cmd : Word} (h : o.selects cmd = true) :
    commandWord o (immField cmd) = cmd := by
  obtain ⟨hop, -, hrsv⟩ := (selects_iff o cmd).1 h
  rw [word_ext, opField_commandWord, immField_commandWord, rsvField_commandWord]
  exact ⟨hop.symm, rfl, hrsv.symm⟩

/-- A row without an 8-bit operand selects one word. -/
theorem commandWord_bare {o : Opcode} {cmd : Word} (hmask : immField o.mask = BitVec.allOnes 8)
    (h : o.selects cmd = true) : commandWord o 0 = cmd := by
  obtain ⟨-, himm, -⟩ := (selects_iff o cmd).1 h
  rw [hmask, BitVec.and_allOnes] at himm
  rw [← himm, commandWord_immField h]

/-- SETA20's mask fixes `IMM8[7:1]` (R87(d)). -/
theorem enableBits_zero_iff (imm : Byte) : imm &&& 0xFE = 0 ↔ imm.toNat ≤ 1 := by
  revert imm; decide

theorem enableBit_of_le_one : ∀ imm : Byte, imm.toNat ≤ 1 →
    (if imm.getLsbD 0 then 1 else 0) = imm := by decide

/-- A port is the whole of `A` where the upper half is zero (R82, R87(e)). -/
theorem setWidth_lowHalf {a : Word} (h : highHalf a = 0) : (lowHalf a).setWidth 32 = a := by
  rw [← BitVec.toNat_inj] at h ⊢
  simp only [highHalf, lowHalf, BitVec.extractLsb'_toNat, BitVec.toNat_setWidth,
    BitVec.ofNat_eq_ofNat, BitVec.toNat_ofNat, Nat.shiftRight_eq_div_pow] at h ⊢
  omega

/-- Settles O2, row by row: the row's operands are fields of the request, and the word is the row's with the
word's own `IMM8`, which is zero or 0 or 1 where the mask says so. -/
theorem decodedCommandHoldsEveryListedField : Obligations.DecodedCommandHoldsEveryListedField := by
  intro r i h
  refine ⟨decode_wellFormed h, ?_⟩
  obtain ⟨o, hsel, hop⟩ := decode_eq_ok.1 h
  cases o with
  | mread | mwrite =>
    obtain ⟨-, rfl⟩ := withData_eq_ok.1 hop
    exact ⟨commandWord_bare rfl hsel, rfl, rfl, rfl⟩
  | piowr =>
    obtain ⟨hport, hdata⟩ := withPort_eq_ok.1 hop
    obtain ⟨-, rfl⟩ := withData_eq_ok.1 hdata
    exact ⟨commandWord_bare rfl hsel, setWidth_lowHalf hport, rfl, rfl⟩
  | piord =>
    obtain ⟨hport, hdata⟩ := withPort_eq_ok.1 hop
    cases hdata
    exact ⟨commandWord_bare rfl hsel, setWidth_lowHalf hport, rfl⟩
  | seta20 =>
    cases hop
    obtain ⟨-, himm, -⟩ := (selects_iff _ _).1 hsel
    refine ⟨?_, trivial⟩
    have henable := enableBit_of_le_one _ ((enableBits_zero_iff _).1 himm)
    exact (congrArg (commandWord .seta20) henable).trans (commandWord_immField hsel)
  | repexc => cases hop; exact ⟨commandWord_immField hsel, rfl, rfl⟩
  | dispbop | regbop => cases hop; exact ⟨commandWord_immField hsel, rfl⟩
  | reqint => cases hop; exact ⟨commandWord_immField hsel, trivial⟩
  | init | execat => cases hop; exact ⟨commandWord_bare rfl hsel, rfl, rfl⟩
  | intack | cleanup | step | sigint | term | rdstat =>
    cases hop; exact ⟨commandWord_bare rfl hsel, trivial⟩

/-! ### The clauses of R87 -/

/-- The checks a row makes of the operands beyond its word (R87(e), R87(f)). -/
def operandsLegal (r : Request) : Opcode → Prop
  | .mread | .mwrite => r.data.length = r.l.toNat
  | .piord => highHalf r.a = 0
  | .piowr => highHalf r.a = 0 ∧ r.data.length = r.l.toNat
  | .seta20 | .intack | .repexc | .dispbop | .init | .cleanup | .execat | .step | .reqint | .sigint
  | .term | .regbop | .rdstat => True

theorem assembleOperands_isOk_iff (r : Request) (o : Opcode) :
    (∃ i, assembleOperands r o = .ok i) ↔ operandsLegal r o := by
  cases o <;> simp [assembleOperands, operandsLegal, withData_eq_ok, withPort_eq_ok]

theorem mem_opcode_all (o : Opcode) : o ∈ Opcode.all := by cases o <;> decide

theorem opField_assigned_iff (cmd : Word) :
    (opField cmd).toNat ∈ [0x01, 0x02, 0x03, 0x04, 0x05, 0x06, 0x07, 0x08,
        0x10, 0x11, 0x12, 0x13, 0x14, 0x15, 0x16, 0x17, 0x18] ↔ ∃ o : Opcode, opField cmd = o.code := by
  show _ ∈ Opcode.all.map (·.code.toNat) ↔ _
  simp only [List.mem_map, mem_opcode_all, true_and, BitVec.toNat_inj, eq_comm]

/-- What a row's mask asks of `IMM8` is that clauses (c) and (d) do not hold. -/
theorem immBits_zero_iff (o : Opcode) (imm : Byte) :
    imm &&& immField o.mask = 0 ↔
      ¬ (imm.toNat ≠ 0 ∧ o.code.toNat ∈
        [0x01, 0x02, 0x04, 0x07, 0x08, 0x10, 0x11, 0x12, 0x13, 0x15, 0x16, 0x18]) ∧
      ¬ (1 < imm.toNat ∧ o.code.toNat = 0x03) := by
  cases o with
  | seta20 => exact (enableBits_zero_iff imm).trans (by simp [Opcode.code])
  | repexc | dispbop | reqint | regbop =>
    exact iff_of_true BitVec.and_zero (by simp [Opcode.code])
  | mread | mwrite | intack | piord | piowr | init | cleanup | execat | step | sigint | term
  | rdstat =>
    show imm &&& BitVec.allOnes 8 = 0 ↔ _
    rw [BitVec.and_allOnes, ← BitVec.toNat_inj]
    simp [Opcode.code]

/-- The checks of a row's operands are that clauses (e) and (f) do not hold. -/
theorem operandsLegal_iff (r : Request) (o : Opcode) :
    operandsLegal r o ↔
      ¬ ((highHalf r.a).toNat ≠ 0 ∧ o.code.toNat ∈ [0x07, 0x08]) ∧
      ¬ (r.data.length ≠ r.l.toNat ∧ o.code.toNat ∈ [0x01, 0x02, 0x08]) := by
  cases o <;> simp [operandsLegal, Opcode.code, ← BitVec.toNat_inj]

/-- Of the word of an assigned `OP`, clauses (b) to (d) are what the row's mask asks for, and (e) and (f) are
the checks of its operands. -/
theorem not_illegalEncoding_of_code {r : Request} {o : Opcode} (h : opField r.cmd = o.code) :
    ¬ illegalEncoding r ↔ o.selects r.cmd = true ∧ operandsLegal r o := by
  have hassigned := (opField_assigned_iff r.cmd).2 ⟨o, h⟩
  rw [selects_iff, immBits_zero_iff, operandsLegal_iff, ← h, ← BitVec.toNat_inj (x := rsvField r.cmd)]
  unfold illegalEncoding
  simp only [opField, immField, rsvField, highHalf] at *
  tauto

/-- A request carries a command exactly where it falls under no clause of R87. -/
theorem decode_isOk_iff (r : Request) : (∃ i, decode r = .ok i) ↔ ¬ illegalEncoding r := by
  simp only [decode_eq_ok]
  constructor
  · rintro ⟨i, o, hsel, hop⟩
    rw [not_illegalEncoding_of_code ((selects_iff o _).1 hsel).1]
    exact ⟨hsel, (assembleOperands_isOk_iff r o).1 ⟨i, hop⟩⟩
  · intro hlegal
    have hassigned : ∃ o : Opcode, opField r.cmd = o.code := by
      rw [← opField_assigned_iff]
      exact not_not.1 fun hop => hlegal (.inl hop)
    obtain ⟨o, ho⟩ := hassigned
    obtain ⟨hsel, hoperands⟩ := (not_illegalEncoding_of_code ho).1 hlegal
    obtain ⟨i, hi⟩ := (assembleOperands_isOk_iff r o).2 hoperands
    exact ⟨i, o, hsel, hi⟩

/-- Settles O5: the clauses of R87 are what the rows' masks and checks reject. -/
theorem everyLegalEncodingDecodes : Obligations.EveryLegalEncodingDecodes :=
  fun r => (decode_isOk_iff r).2

/-! ### The serialized form (R85) -/

theorem ofNat_ofLeBytes (x : Word) : BitVec.ofNat 32 (ofLeBytes (leBytes 4 x.toNat)) = x := by
  apply BitVec.eq_of_toNat_eq
  rw [BitVec.toNat_ofNat, ofLe_leBytes]
  omega

section Field
variable (x : Word) (bs : List Byte)

theorem take_field : (leBytes 4 x.toNat ++ bs).take 4 = leBytes 4 x.toNat :=
  List.take_left' (length_leBytes 4 _)

theorem drop_field (n : Nat) : (leBytes 4 x.toNat ++ bs).drop (4 + n) = bs.drop n := by
  rw [← List.drop_drop, List.drop_left' (length_leBytes 4 _)]

/-- Byte `k` of a field is its bits `8k+7 : 8k`. -/
theorem getElem?_field {k : Nat} (h : k < 4) :
    (leBytes 4 x.toNat ++ bs)[k]? = some (x.extractLsb' (8 * k) 8) := by
  rw [List.getElem?_append_left (by rwa [length_leBytes]), get_leBytes 4 _ _ h, Option.some_inj]
  apply BitVec.eq_of_toNat_eq
  rw [BitVec.toNat_ofNat, BitVec.extractLsb'_toNat, Nat.shiftRight_eq_div_pow, Nat.pow_mul]

theorem getElem?_after_field (k : Nat) : (leBytes 4 x.toNat ++ bs)[4 + k]? = bs[k]? := by
  rw [← List.getElem?_drop, List.drop_left' (length_leBytes 4 _)]

end Field

theorem toBytes_eq (r : Request) :
    r.toBytes = leBytes 4 r.cmd.toNat ++ (leBytes 4 r.a.toNat ++ (leBytes 4 r.l.toNat ++ r.data)) := by
  simp only [Request.toBytes, List.append_assoc]

theorem ofBytes_toBytes (r : Request) : Request.ofBytes r.h r.toBytes = some r := by
  have hlen : 12 ≤ r.toBytes.length := by
    simp only [Request.toBytes, List.length_append, length_leBytes]; omega
  rw [Request.ofBytes, if_pos hlen, toBytes_eq, show 12 = 4 + (4 + (4 + 0)) from rfl,
    show 8 = 4 + (4 + 0) from rfl]
  simp only [drop_field, drop_field _ _ 0, take_field, List.drop_zero, ofNat_ofLeBytes]

/-- Settles O7: the bytes are three fields, one after the other, and the data. -/
theorem serializedRequestReadsBack : Obligations.SerializedRequestReadsBack := by
  intro r
  refine ⟨ofBytes_toBytes r, ?_⟩
  rw [toBytes_eq]
  refine ⟨fun k hk => ?_, fun k hk => ?_, fun k hk => ?_, fun k => ?_⟩
  · exact getElem?_field _ _ hk
  · rw [getElem?_after_field, getElem?_field _ _ hk]
  · rw [show 8 + k = 4 + (4 + k) by omega, getElem?_after_field, getElem?_after_field,
      getElem?_field _ _ hk]
  · rw [show 12 + k = 4 + (4 + (4 + k)) by omega, getElem?_after_field, getElem?_after_field,
      getElem?_after_field]

/-! ### Assembler forms (R92, R93) -/

@[simp] theorem fits_toNat {w : Nat} (x : BitVec w) : fits w x.toNat = some x := by
  rw [fits, if_pos x.isLt, BitVec.ofNat_toNat, BitVec.setWidth_eq]

theorem assemble_assembly (i : Instr) : assemble i.assembly.1 i.assembly.2 = some i := by
  cases i with
  | seta20 b => cases b <;> rfl
  | mread | mwrite | repexc | dispbop | piord | piowr | init | execat | reqint | regbop =>
    simp [Instr.assembly, assemble]
  | intack | cleanup | step | sigint | term | rdstat => rfl

/-- Settles O8: the written-out forms command by command, and R93's expansions by evaluation. -/
theorem assemblerFormsStandForTheirCommands : Obligations.AssemblerFormsStandForTheirCommands := by
  refine ⟨assemble_assembly, fun address length => ?_, rfl, rfl, by decide, by decide⟩
  simp [assemble]

/-- Settles O6, word by word. -/
theorem exampleWordsDecode : Obligations.ExampleWordsDecode := by
  unfold Obligations.ExampleWordsDecode
  decide

end Sys2Proof

namespace Sys2Proof.Machine

open State

/-! ### Contract faults (R87, R88, R91) -/

/-- The first contract fault is recorded, and nothing else but the response changes (R163). -/
theorem raise_unfaulted {s : State} (h : s.cfault = none) (r : ContractFault) :
    s.raise r = { s with cfault := some r, response := {} } := by
  simp [State.raise, noteFault, respond, h]

theorem step_illegal {s : State} {r : Request} {rest : List Input} {e : IllegalEncoding}
    (hin : s.inputs = .command r :: rest) (hdecode : decode r = .error e) :
    step s = .next (State.raise { s with inputs := rest } .illegalCmd) := by
  simp only [step, hin, hdecode, illegalCommand]

/-- Settles O4: an illegal encoding does not decode, and the step raises the fault. -/
theorem illegalEncodingRaisesIllegalCmd : Obligations.IllegalEncodingRaisesIllegalCmd := by
  intro s r rest hin hc hillegal
  cases hdecode : decode r with
  | ok i => exact absurd hillegal ((decode_isOk_iff r).1 ⟨i, hdecode⟩)
  | error e =>
    rw [step_illegal hin hdecode, raise_unfaulted (s := { s with inputs := rest }) hc]

/-- Settles O44: each command's own check fails. -/
theorem illegalOperandValuesAreContractFaults : Obligations.IllegalOperandValuesAreContractFaults := by
  intro s hr
  refine ⟨fun n cs ip hn => ?_, fun id ctx htrap => ?_, fun id h hh => ?_⟩
  · rw [exec_repexc_raises hr cs ip ((excKind_eq_none_iff n).2 hn), raise_unfaulted hr.2]
  · rw [exec_dispbop_raises hr ctx htrap, raise_unfaulted hr.2]
  · rw [exec_regbop_raises hr id hh, raise_unfaulted hr.2]

/-- A command of two checks whose second fails raises the first's reason where that fails too. -/
theorem whenMet_second_fails {s : State} (h : s.cfault = none) (p : Prop) [Decidable p] {b : Bool}
    (hb : b = false) (first second : ContractFault) (body : State → Result) :
    s.whenMet [(decide p, first), (b, second)] body =
      .next { s with cfault := some (if p then second else first), response := {} } := by
  by_cases hp : p
  · rw [whenMet_holds (decide_eq_true hp), whenMet_fails h hb, raise_unfaulted h, if_pos hp]
  · rw [whenMet_fails h (decide_eq_false hp), raise_unfaulted h, if_neg hp]

/-- Settles O35: the check that nothing is in progress fails, and it is CLEANUP's first and the second of INIT
and STEP. -/
theorem nestedControlsRaiseNested : Obligations.NestedControlsRaiseNested := by
  intro s inHandle outHandle hc hnested
  have hcheck : decide (s.inProgress = []) = false := decide_eq_false hnested
  refine ⟨?_, ?_, ?_⟩
  · simp only [exec, execCleanup]
    rw [whenMet_fails hc hcheck, raise_unfaulted hc]
  · simp only [exec, execInit]
    rw [whenMet_second_fails hc _ hcheck]
  · simp only [exec, execStep]
    rw [whenMet_second_fails hc _ hcheck]

/-! ### Responses (R80) and returns (R91, R152) -/

/-- Settles O11: a return resumes the innermost activity, and of those named only PIORD's answers. -/
theorem returnCompletesTheInnermostCommand : Obligations.ReturnCompletesTheInnermostCommand := by
  intro s rest hin
  rw [step_agentReturns hin]
  refine ⟨fun hnone => ?_, fun size outer hport => ?_, fun act outer hact hread hinit hcleanup => ?_⟩
  · simp only [agentReturns, hnone]
  · simp only [agentReturns, hport]; rfl
  · simp only [agentReturns, hact]
    cases act with
    | init left => exact absurd rfl (hinit left)
    | cleanup left => exact absurd rfl (hcleanup left)
    | portRead size => exact absurd rfl (hread size)
    | sigint | step | execat | reqint | handler | portWrite => rfl

/-- The fields a command may answer, and the one RDSTAT always answers (R80, R86). -/
def ListedOnly (i : Instr) (r : Response) : Prop :=
  (r.rdata ≠ none → i.opcode = .mread) ∧ (r.vec ≠ none → i.opcode = .intack) ∧
  (r.ok ≠ none → i.opcode = .init) ∧ (r.status ≠ none ↔ i.opcode = .rdstat)

theorem listedOnly_empty {i : Instr} (h : i.opcode ≠ .rdstat) : ListedOnly i {} := by
  simp [ListedOnly, h]

/-- Calls end in progress, without an answer, or with the command's own. -/
theorem runCalls_response {frame : List Call → Activity} {finish : State → State} {r : Response}
    (hfinish : ∀ s, (finish s).response = r) (cs : List Call) (s : State) :
    (runCalls frame finish cs s).response = {} ∨ (runCalls frame finish cs s).response = r := by
  rcases runCalls_cases frame finish cs s with heq | ⟨before, c, left, -, heq⟩
  · exact .inr (by rw [heq, hfinish])
  · exact .inl (by rw [heq, begin_response])

theorem Effect.listedOnly {i : Instr} {s t : State} (h : Effect i s t) : ListedOnly i t.response := by
  have empty : i.opcode ≠ .rdstat → t.response = {} → ListedOnly i t.response :=
    fun hi ht => by rw [ht]; exact listedOnly_empty hi
  cases i with
  | mread => obtain ⟨-, rfl⟩ | ⟨-, -, rfl⟩ := h <;> simp [ListedOnly, Instr.opcode]
  | mwrite => obtain ⟨-, rfl⟩ | ⟨-, -, rfl⟩ := h <;> exact empty nofun rfl
  | intack => obtain ⟨_, rfl⟩ := h; simp [ListedOnly, Instr.opcode]
  | repexc => obtain ⟨_, rfl⟩ := h; exact empty nofun rfl
  | dispbop => obtain rfl | ⟨_, rfl⟩ := h <;> exact empty nofun rfl
  | init x y =>
    obtain ⟨-, -, rfl | rfl⟩ := h
    · obtain ht | ht := runCalls_response finishInit_response (initCalls x y)
        ((s.consume 1).setArena [])
      · exact empty nofun ht
      · rw [startMachine, runInit, ht]; simp [ListedOnly, Instr.opcode]
    · simp [ListedOnly, Instr.opcode]
  | cleanup =>
    obtain ⟨-, ⟨-, rfl⟩ | ⟨-, rfl⟩⟩ := h
    · exact empty nofun ((or_self_iff).1 (runCalls_response finishCleanup_response cleanupCalls s))
    · exact empty nofun rfl
  | step => obtain ⟨-, rfl | rfl⟩ := h <;> exact empty nofun rfl
  | sigint => obtain ⟨_, rfl, rfl | rfl⟩ := h <;> exact empty nofun rfl
  | regbop => obtain ⟨-, rfl⟩ := h; exact empty nofun rfl
  | rdstat => cases h; simp [ListedOnly, Instr.opcode]
  | seta20 | piord | piowr | execat | reqint | term => cases h; exact empty nofun rfl

/-- Settles O53: a command that is not served or raises a fault answers nothing, and the others by their
effect. -/
theorem responsesHoldOnlyListedFields : Obligations.ResponsesHoldOnlyListedFields := by
  intro i s t h
  rcases exec_cases h with ⟨-, hi, rfl⟩ | ⟨-, hi, _, rfl⟩ | ⟨-, -, heff⟩
  · exact listedOnly_empty hi
  · exact listedOnly_empty hi
  · exact heff.listedOnly

end Sys2Proof.Machine

/-! ## Memory arbiter (spec/40_arbiter.md) -/

namespace Sys2Proof.Machine

open State

/-! ### The A20 mask (R107, R112) -/

theorem maskA20_set (address : Word) : maskA20 true address = address := rfl

theorem maskA20_clear (address : Word) : maskA20 false address = address &&& 0xFFEFFFFF := rfl

theorem getLsbD_maskA20_clear (address : Word) {k : Nat} (hk : k < 32) :
    (maskA20 false address).getLsbD k = (address.getLsbD k && k ≠ 20) := by
  have hmask : ∀ k < 32, (0xFFEFFFFF : Word).getLsbD k = decide (k ≠ 20) := by decide
  rw [maskA20_clear, BitVec.getLsbD_and, hmask k hk]

theorem maskA20_clear_setBitTwenty (address : Word) :
    maskA20 false (address ||| 0x00100000) = maskA20 false address := by
  have hbit : (0x00100000 : Word) &&& 0xFFEFFFFF = 0#32 := by decide
  rw [maskA20_clear, BitVec.and_or_distrib_right, hbit, BitVec.or_zero, maskA20_clear]

/-! ### What a request does with its address -/

/-- A gated command depends on its body in the state it is served in only. -/
theorem State.whenReady_congr {s : State} {body body' : State → Result} (h : body s = body' s) :
    s.whenReady body = s.whenReady body' := by
  by_cases hc : s.cfault = none
  · by_cases hl : s.life = .ready
    · rw [whenReady_ready ⟨hl, hc⟩, whenReady_ready ⟨hl, hc⟩, h]
    · rw [whenReady_notReady hc hl, whenReady_notReady hc hl]
  · rw [whenReady_faulted hc, whenReady_faulted hc]

theorem exec_mread_congr {s : State} {a b : Word} (h : s.maskedAddress a = s.maskedAddress b)
    (length : Word) (dst : List Byte) :
    exec (.mread a length dst) s = exec (.mread b length dst) s := by
  simp only [exec, execMread]
  exact whenReady_congr (by simp only [dropped, h])

theorem exec_mwrite_congr {s : State} {a b : Word} (h : s.maskedAddress a = s.maskedAddress b)
    (length : Word) (payload : List Byte) :
    exec (.mwrite a length payload) s = exec (.mwrite b length payload) s := by
  simp only [exec, execMwrite]
  exact whenReady_congr (by simp only [dropped, h])

/-! ### Dropped requests (R106, R108) -/

/-- A request meets a range where some address lies in both. -/
theorem isect_nonempty_iff {a n : Nat} {q : Range} :
    ((requestRange a n).isect q).nonempty ↔ ∃ x, a ≤ x ∧ x < a + n ∧ q.holds x := by
  constructor
  · intro hmeet
    by_contra hnone
    exact isect_empty (fun x hlo hhi hq => hnone ⟨x, hlo, hhi, hq⟩) hmeet
  · rintro ⟨x, hlo, hhi, hq⟩
    simp only [Range.nonempty, Range.isect, requestRange]
    omega

theorem dropped_read_iff {s : State} {address length : Word} :
    s.dropped .read address length ↔
      s.params.maxAddress ≤ s.maskedAddress address + length.toNat := by
  simp [dropped]

theorem dropped_write_iff {s : State} {address length : Word} :
    s.dropped .write address length ↔
      s.params.maxAddress ≤ s.maskedAddress address + length.toNat ∨
      ∃ x, s.maskedAddress address ≤ x ∧ x < s.maskedAddress address + length.toNat ∧
        s.params.romBase ≤ x ∧ x < s.params.romLimit := by
  simp only [dropped, isect_nonempty_iff, true_and]
  rfl

/-! ### The calls of an access (R91, R104, R105) -/

theorem State.callReentrantFree_unfaulted {s : State} (h : s.cfault = none) (n : Nat) :
    s.callReentrantFree n = { s with
      cfault := if ∃ k < n, (s.answerAt k).callsBack = true then some .reentrant else none
      answers := s.answers.drop n
      drawn := s.drawn + (n - s.answers.length) } := by
  simp only [callReentrantFree, calledBack_iff]
  split <;> simp [noteFault, consume, h]

/-- The state after a read's device calls, field by field. -/
theorem State.afterFill_unfaulted {s : State} (h : s.cfault = none) (i : Range) :
    s.afterFill i = { s with
      arena := (s.afterFill i).arena
      cfault := if ∃ k < 2 + i.size, (s.answerAt k).callsBack = true then some .reentrant else none
      history := s.history ++ [.videoBase (s.answerAt 0).value, .videoLimit (s.answerAt 1).value] ++
        (if i.nonempty then
          [.deviceRead i.lo i.size ((List.range i.size).map fun k => (s.answerAt (2 + k)).byte)]
        else [])
      answers := s.answers.drop (2 + i.size)
      drawn := s.drawn + (2 + i.size - s.answers.length) } := by
  rw [afterFill_eq, callReentrantFree_unfaulted (s := s.recordAll _) h]
  rfl

/-- The state after a write's device calls, field by field. -/
theorem State.deviceForward_unfaulted {s : State} (h : s.cfault = none) (a : Nat)
    (payload : List Byte) (i : Range) :
    (s.afterStore a payload).deviceForward a payload i = { s with
      arena := s.arena.writeBytes a payload
      cfault := if ∃ k < (if i.nonempty then 3 else 2 : Nat), (s.answerAt k).callsBack = true
        then some .reentrant else none
      history := s.history ++ [.videoBase (s.answerAt 0).value, .videoLimit (s.answerAt 1).value] ++
        (if i.nonempty then [.deviceWrite i.lo (payloadPart a payload i) i.size] else [])
      answers := s.answers.drop (if i.nonempty then 3 else 2)
      drawn := s.drawn + ((if i.nonempty then 3 else 2) - s.answers.length) } := by
  rw [deviceForward_eq, callReentrantFree_unfaulted (s := s.recordAll _) h]
  rfl

/-- A filled arena holds the device's bytes in the range it fills, and every other byte as before. -/
theorem State.afterFill_read (s : State) (i : Range) (x : Nat) :
    (s.afterFill i).arena.read x =
      if i.holds x then (s.answerAt (2 + (x - i.lo))).byte else s.arena.read x := by
  rw [afterFill_arena]
  by_cases hx : i.holds x
  · obtain ⟨k, rfl⟩ := Nat.exists_eq_add_of_le hx.1
    have hk : k < (s.queryVideo.answerBytes i.size).length := by
      simp only [length_answerBytes, Range.size]; omega
    rw [if_pos (show i.nonempty by omega), if_pos hx, Memory.read_writeBytes_inside hk]
    simp
  · rw [if_neg hx]
    split
    · exact Memory.read_writeBytes_outside (by simp only [length_answerBytes, Range.size]; omega)
    · rfl

/-- The part of a payload that lies in a part of its range is what the arena then holds there. -/
theorem payloadPart_eq_read (m : Memory) {a : Nat} {payload : List Byte} {i : Range} (hlo : a ≤ i.lo)
    (hhi : i.hi ≤ a + payload.length) :
    payloadPart a payload i =
      (List.range i.size).map fun k => (m.writeBytes a payload).read (i.lo + k) := by
  apply List.ext_getElem
  · simp only [payloadPart, Range.size, List.length_take, List.length_drop, List.length_map,
      List.length_range]
    omega
  · intro k _ hk
    have hk : k < i.hi - i.lo := by simpa [Range.size] using hk
    have hread := Memory.read_writeBytes_inside (m := m) (a := a) (vs := payload)
      (k := i.lo - a + k) (by omega)
    rw [show a + (i.lo - a + k) = i.lo + k by omega] at hread
    simp [payloadPart, hread]

/-- A read below `MAX_ADDRESS` completes, with the bytes of the filled arena (R101). -/
theorem exec_mread_inRange {s : State} (hr : s.Ready) {address length : Word} (dst : List Byte)
    (h : s.maskedAddress address + length.toNat < s.params.maxAddress) :
    exec (.mread address length dst) s = .next ((s.afterFill (s.videoPart address length)).respond
      { rdata := some <| (s.afterFill (s.videoPart address length)).arena.readBytes
          (s.maskedAddress address) length.toNat }) := by
  rw [exec_mread_served hr dst (by rw [dropped_read_iff]; omega), readThrough_eq h]
  rfl

/-! ### The obligations -/

/-- Settles O17: the mask is a conjunction with a constant, whose bits are all set but bit 20. -/
theorem a20MaskClearsBitTwenty : Obligations.A20MaskClearsBitTwenty :=
  fun address => ⟨maskA20_set address, maskA20_clear address, fun _ => getLsbD_maskA20_clear address⟩

/-- Settles O26: a served SETA20 writes the gate and the response. -/
theorem seta20SetsTheGate : Obligations.Seta20SetsTheGate :=
  fun _ enabled hr => exec_seta20_served hr enabled

/-- Settles O24: the two requests have the same masked address. -/
theorem bitTwentyIsIgnoredWhileTheGateIsClear : Obligations.BitTwentyIsIgnoredWhileTheGateIsClear := by
  intro s address length data hclear
  have hmasked : s.maskedAddress (address ||| 0x00100000) = s.maskedAddress address := by
    rw [maskedAddress, hclear, maskA20_clear_setBitTwenty, maskedAddress, hclear]
  exact ⟨exec_mread_congr hmasked length data, exec_mwrite_congr hmasked length data⟩

/-- Settles O18: the causes named are those of a dropped request. -/
theorem droppedAccessHasNoEffect : Obligations.DroppedAccessHasNoEffect :=
  fun _ _ _ dst payload hr =>
    ⟨fun h => exec_mread_dropped hr dst (dropped_read_iff.2 h),
      fun h => exec_mwrite_dropped hr payload (dropped_write_iff.2 h)⟩

/-- Settles O25: a range that holds the last byte ends at `MAX_ADDRESS` or above. -/
theorem lastArenaByteIsNeverTransferred : Obligations.LastArenaByteIsNeverTransferred := by
  intro s address length data hr hwf
  refine ⟨fun _ hlast => ?_, fun hzero hlength => ?_⟩
  · have hend : s.params.maxAddress ≤ s.maskedAddress address + length.toNat := by omega
    exact ⟨exec_mread_dropped hr data (dropped_read_iff.2 hend),
      exec_mwrite_dropped hr data (dropped_write_iff.2 (.inl hend))⟩
  · rw [dropped_read_iff, hzero, hlength]
    obtain ⟨hpos, -⟩ := hwf
    omega

/-- Settles O19: the state after the read's device calls, written out, and the bytes of the filled arena. -/
theorem readAnswersArenaAndDeviceBytes : Obligations.ReadAnswersArenaAndDeviceBytes := by
  intro s address length dst hr hin
  refine ⟨(s.afterFill (s.videoPart address length)).arena, s.afterFill_read _, ?_⟩
  rw [exec_mread_inRange hr dst hin, afterFill_unfaulted hr.2, Memory.readBytes]
  simp only [afterFill_read]
  rfl

/-- Settles O20: the state after the write's device calls, written out; the part of the payload the device
is told is what the arena then holds. -/
theorem writeStoresPayloadAndTellsTheDevice : Obligations.WriteStoresPayloadAndTellsTheDevice := by
  intro s address length payload hr hlen hin hrom
  have hkept : ¬ s.dropped .write address length := by
    rw [dropped_write_iff]
    rintro (hend | ⟨x, hlo, hhi, hx⟩)
    · exact absurd hin (not_lt.2 hend)
    · exact hrom x hlo hhi hx
  refine ⟨s.arena.writeBytes (s.maskedAddress address) payload, fun k hk => ?_, fun x hx => ?_, ?_⟩
  · have hk : k < payload.length := by omega
    rw [List.getElem?_eq_getElem hk, ← Memory.read_writeBytes_inside hk]
    rfl
  · exact Memory.read_writeBytes_outside (by rw [hlen]; exact hx)
  · rw [exec_mwrite_served hr payload hkept, writeThrough_eq (a := s.maskedAddress address) hlen hin,
      deviceForward_unfaulted hr.2, payloadPart_eq_read s.arena (le_max_left ..)
        (by rw [hlen]; exact min_le_left ..)]
    rfl

/-- Settles O22: every byte of the range lies in the part the device fills. -/
theorem readInTheVideoRegionAnswersTheDevice : Obligations.ReadInTheVideoRegionAnswersTheDevice := by
  intro s address length dst hr hkept hlo hhi
  rw [dropped_read_iff, not_le] at hkept
  refine ⟨_, exec_mread_inRange hr dst hkept, ?_⟩
  simp only [respond_response, Memory.readBytes, Response.mk.injEq, Option.some.injEq, and_true]
  refine List.map_congr_left fun k hk => ?_
  have hk : k < length.toNat := List.mem_range.1 hk
  have hpart : s.videoPart address length =
      { lo := s.maskedAddress address, hi := s.maskedAddress address + length.toNat } := by
    simp [videoPart, Range.isect, requestRange, videoRange, hlo, hhi]
  rw [afterFill_read, hpart, if_pos ⟨Nat.le_add_right .., Nat.add_lt_add_left hk _⟩,
    Nat.add_sub_cancel_left]
  rfl

/-- Settles O23: a write that is not dropped stores its payload outside the read-only region. -/
theorem writesNeverChangeReadOnlyBytes : Obligations.WritesNeverChangeReadOnlyBytes := by
  intro s t address length payload hlen h x hbase hlimit
  rcases exec_cases h with ⟨-, -, rfl⟩ | ⟨-, -, r, rfl⟩ | ⟨-, -, ⟨-, rfl⟩ | ⟨hkept, -, rfl⟩⟩
  · rfl
  · rfl
  · rfl
  · rw [respond_arena, deviceForward_arena, afterStore_arena]
    refine Memory.read_writeBytes_outside ?_
    by_contra hinside
    exact hkept (dropped_write_iff.2 (.inr ⟨x, by omega, by omega, hbase, hlimit⟩))

/-- Settles O47: every other command is gated on READY. -/
theorem commandsOutsideReadyAreContractFaults : Obligations.CommandsOutsideReadyAreContractFaults := by
  intro i s hc hlife hinit hcleanup hrdstat
  obtain ⟨body, hgate⟩ := exec_gated ⟨hinit, hcleanup, hrdstat⟩ s
  rw [hgate, whenReady_notReady hc hlife, raise_unfaulted hc]

end Sys2Proof.Machine

/-! ## Execution controller (spec/41_controller.md) -/

namespace Sys2Proof.Machine

open State

/-! ### The calls of INIT and CLEANUP (R120, R121) -/

/-- An agent that issues commands from inside its call leaves the command in progress at it. -/
theorem State.runCalls_stops {frame : List Call → Activity} {finish : State → State} {s : State}
    {c : Call} {left : List Call} (h : ∃ k < c.answers, (s.answerAt k).callsBack = true) :
    runCalls frame finish (c :: left) s = (s.makeCall c).begin (frame left) :=
  if_pos ((calledBack_iff s _).2 h)

/-- Where the agent issues none, the next call follows. -/
theorem State.runCalls_goesOn {frame : List Call → Activity} {finish : State → State} {s : State}
    {c : Call} {left : List Call} (h : ∀ k < c.answers, (s.answerAt k).callsBack = false) :
    runCalls frame finish (c :: left) s = runCalls frame finish left (s.makeCall c) := by
  refine if_neg fun hback => ?_
  obtain ⟨k, hk, hcalls⟩ := (calledBack_iff s _).1 hback
  rw [h k hk] at hcalls
  cases hcalls

theorem State.consume_consume (s : State) (n m : Nat) : (s.consume n).consume m = s.consume (n + m) := by
  ext1 <;> simp
  omega

/-- What any calls leave: only the engine and the trap table depend on which they are. -/
theorem State.foldl_makeCall_eq (calls : List Call) (s : State) :
    calls.foldl makeCall s = { s.consume (calls.map Call.answers).sum with
      engine := (calls.foldl makeCall s).engine
      traps := (calls.foldl makeCall s).traps
      history := s.history ++ calls.map Call.event } := by
  induction calls generalizing s with
  | nil => ext1 <;> simp
  | cons c calls ih =>
    rw [List.foldl_cons, ih]
    ext1 <;> simp
    omega

theorem State.foldl_initCalls_engine (s : State) (x y : Word) :
    ((initCalls x y).foldl makeCall s).engine =
      some { s.constructedEngine with interruptEnable := true } := by simp [initCalls]

theorem State.foldl_initCalls_traps (s : State) (x y : Word) :
    ((initCalls x y).foldl makeCall s).traps = [(s.params.debugBopId.toNat, .debugBreak)] := by
  simp [initCalls]

theorem State.foldl_cleanupCalls_engine (s : State) :
    (cleanupCalls.foldl makeCall s).engine = s.engine := by simp [cleanupCalls]

theorem State.foldl_cleanupCalls_traps (s : State) :
    (cleanupCalls.foldl makeCall s).traps = s.traps := by simp [cleanupCalls]

theorem State.initCalls_answers (x y : Word) : ((initCalls x y).map Call.answers).sum = 8 := rfl

theorem State.cleanupCalls_answers : (cleanupCalls.map Call.answers).sum = 5 := rfl

/-! ### INIT and CLEANUP where they are served -/

/-- INIT passes both of its checks on an UNINIT machine with nothing in progress. -/
theorem exec_init_starts {s : State} (hlife : s.life = .uninit) (hc : s.cfault = none)
    (halone : s.inProgress = []) (hok : (s.answerAt 0).bit = true) (x y : Word) :
    exec (.init x y) s = .next (s.startMachine x y) := by
  simp only [exec, execInit]
  rw [whenMet_holds (decide_eq_true hlife), whenMet_holds (decide_eq_true halone), whenMet_nil hc,
    if_pos hok]

theorem exec_cleanup_ready {s : State} (hr : s.Ready) (halone : s.inProgress = []) :
    exec .cleanup s = .next s.stopMachine := by
  obtain ⟨hlife, hc⟩ := hr
  simp only [exec, execCleanup]
  rw [whenMet_holds (decide_eq_true halone), whenMet_nil hc, hlife]

/-! ### The return of an agent (R91) -/

/-- The command whose agent returns goes on, no longer in progress. -/
theorem step_resumes {s : State} {rest : List Input} {act : Activity} {outer : List Activity}
    (hin : s.inputs = .agentReturns :: rest) (hact : s.inProgress = act :: outer) :
    step s = .next (State.resume { s with inputs := rest, inProgress := outer } act) := by
  rw [step_agentReturns hin]
  simp only [agentReturns, hact]

/-- INIT and CLEANUP go on with the calls that stand with them. -/
theorem resume_runsCalls {frame : List Call → Activity} (h : frame = .init ∨ frame = .cleanup) :
    ∃ finish, ∀ (s : State) (calls : List Call),
      s.resume (frame calls) = runCalls frame finish calls s := by
  obtain rfl | rfl := h
  · exact ⟨finishInit, fun _ _ => rfl⟩
  · exact ⟨finishCleanup, fun _ _ => rfl⟩

/-- A call leaves what stands around it: the inputs and the commands in progress. -/
theorem State.makeCall_within (s : State) (rest : List Input) (outer : List Activity) (c : Call) :
    State.makeCall { s with inputs := rest, inProgress := outer } c =
      { s.makeCall c with inputs := rest, inProgress := outer } := by
  cases c <;> rfl

/-- A return of INIT or CLEANUP with calls left: the next one is made, and where no agent issues a command
inside it, the step is the one after its return. -/
theorem step_makesCall {s : State} {rest : List Input} {frame : List Call → Activity} {c : Call}
    {left : List Call} {outer : List Activity} (hframe : frame = .init ∨ frame = .cleanup)
    (hin : s.inputs = .agentReturns :: rest) (hact : s.inProgress = frame (c :: left) :: outer) :
    ((∃ k < c.answers, (s.answerAt k).callsBack = true) →
      step s = .next { s.makeCall c with
        inputs := rest, inProgress := frame left :: outer, response := {} }) ∧
    ((∀ k < c.answers, (s.answerAt k).callsBack = false) →
      step s = step { s.makeCall c with inProgress := frame left :: outer }) := by
  obtain ⟨finish, hresume⟩ := resume_runsCalls hframe
  rw [step_resumes hin hact, hresume]
  refine ⟨fun hback => ?_, fun hquiet => ?_⟩
  · rw [runCalls_stops (s := { s with inputs := rest, inProgress := outer }) hback, makeCall_within]
    rfl
  · have hnext := step_resumes (s := { s.makeCall c with inProgress := frame left :: outer })
      ((makeCall_inputs s c).trans hin) rfl
    rw [runCalls_goesOn (s := { s with inputs := rest, inProgress := outer }) hquiet, makeCall_within,
      hnext, hresume]

/-! ### The STATUS view (R31, R128) -/

/-- The word depends on four small fields, and each of their values gives a closed table of 32 bits. -/
theorem getLsbD_statusWord (s : State) : ∀ k < 32, s.statusWord.getLsbD k =
    ((k = 0 && s.a20) || (k = 1 && s.running) || (k = 2 && s.life = .ready) ||
      (k = 3 && s.life = .released) || (k = 4 && s.cfault ≠ none)) := by
  have hfault : decide (s.cfault ≠ none) = s.cfault.isSome := by cases s.cfault <;> rfl
  rw [statusWord, hfault]
  cases s.cfault.isSome <;> cases s.life <;> cases s.running <;> cases s.a20 <;> decide

/-! ### SIGINT (R125) -/

/-- What a served SIGINT leaves, whether the engine issues commands from inside the call or not. -/
theorem exec_sigint_effect {s : State} {e : Engine} (hr : s.Ready) (he : s.engine = some e) :
    exec .sigint s = .next { s with
      engine := some { e with pending := true }
      history := s.history ++ [.engineSignalInterrupt]
      inProgress := if (s.answerAt 0).callsBack = true then .sigint :: s.inProgress else s.inProgress
      answers := s.answers.drop 1
      drawn := s.drawn + (1 - s.answers.length)
      response := {} } := by
  have hback : s.calledBack 1 = (s.answerAt 0).callsBack := by simp [calledBack]
  rw [exec_sigint_served hr, hback]
  simp only [updateEngine, record, he]
  split <;> rfl

/-! ### The obligations -/

/-- Settles O12: the first step runs the calls as a return does that has them all still to make; each kind of
call has the event, effect and answers of `makeCall`; and with no call left a return ends the command. -/
theorem initAndCleanupMakeTheirCallsInTurn : Obligations.InitAndCleanupMakeTheirCallsInTurn := by
  refine ⟨fun s x y hlife hc halone hok => ?_, fun s hr halone => ?_,
    fun s rest frame c left outer hframe hin hact => ?_, fun s rest outer hin => ⟨?_, ?_⟩⟩
  · rw [exec_init_starts hlife hc halone hok, step_resumes rfl rfl, ← halone]
    rfl
  · rw [exec_cleanup_ready hr halone, step_resumes rfl rfl, ← halone]
    rfl
  · cases c <;> exact step_makesCall hframe hin hact
  · exact step_resumes hin
  · exact step_resumes hin

/-- Settles O16: CMD selects RDSTAT's row only, and the STATUS word has the bits of the view. -/
theorem rdstatAnswersTheStatusView : Obligations.RdstatAnswersTheStatusView := by
  refine ⟨fun r => ⟨fun h => ?_, fun h => decode_eq_ok.2 ⟨.rdstat, by rw [h]; decide, rfl⟩⟩,
    fun s => ⟨s.statusWord, exec_rdstat s, getLsbD_statusWord s⟩⟩
  obtain ⟨-, hcmd, -⟩ := decodedCommandHoldsEveryListedField r .rdstat h
  exact hcmd.symm

/-- Settles O27: no call stops INIT, so it makes them all and ends. -/
theorem initStartsTheMachine : Obligations.InitStartsTheMachine := by
  intro s x y hlife hc halone hok hquiet
  have hcalls : ∀ k < ((initCalls x y).map Call.answers).sum,
      (((s.consume 1).setArena []).answerAt k).callsBack = false := by
    simpa only [initCalls_answers, answerAt_setArena, answerAt_consume] using hquiet
  have hanswers : ((s.consume 1).setArena []).consume 8 = (s.consume 9).setArena [] :=
    congrArg (·.setArena []) (consume_consume s 1 8)
  rw [exec_init_starts hlife hc halone hok, startMachine, runInit, runCalls_quiet _ _ _ _ hcalls,
    foldl_makeCall_eq, foldl_initCalls_engine, foldl_initCalls_traps, initCalls_answers,
    hanswers, constructedEngine]
  simp only [answerAt_setArena, answerAt_consume]
  rfl

/-- Settles O30: INIT's first check fails, whether or not its second one does. -/
theorem initOutsideUninitIsALifecycleFault : Obligations.InitOutsideUninitIsALifecycleFault := by
  intro s x y hc hlife
  simp only [exec, execInit]
  rw [whenMet_fails hc (decide_eq_false hlife), raise_unfaulted hc]

/-- Settles O31, by lifecycle; from READY no call stops CLEANUP, so it makes them all and ends. -/
theorem cleanupReleasesTheMachine : Obligations.CleanupReleasesTheMachine := by
  intro s hc halone
  refine ⟨fun hlife hquiet => ?_, fun hlife => ?_, fun hlife => ?_⟩
  · rw [← cleanupCalls_answers] at hquiet
    rw [exec_cleanup_ready ⟨hlife, hc⟩ halone, stopMachine, runCleanup, runCalls_quiet _ _ _ _ hquiet,
      foldl_makeCall_eq, foldl_cleanupCalls_engine, foldl_cleanupCalls_traps, cleanupCalls_answers]
    rfl
  · simp only [exec, execCleanup]
    rw [whenMet_holds (decide_eq_true halone), whenMet_nil hc, hlife]
  · simp only [exec, execCleanup]
    rw [whenMet_holds (decide_eq_true halone), whenMet_nil hc, raise_unfaulted hc, hlife]

/-- Settles O32: a served EXECAT, with the engine's CS:IP written. -/
theorem execatSetsTheEntryPoint : Obligations.ExecatSetsTheEntryPoint := by
  intro s e segment offset hr he hreal
  rw [exec_execat_served hr (by simp [outsideRealMode, he, hreal])]
  simp only [updateEngine, record, he]
  rfl

/-- Settles O33: the engine's mode is what EXECAT looks at. -/
theorem execatOutsideRealModeIsRefused : Obligations.ExecatOutsideRealModeIsRefused :=
  fun s e segment offset hr he hmode =>
    exec_execat_refused hr (by simp [outsideRealMode, he, hmode]) segment offset

/-- Settles O34, by the Run State. -/
theorem stepCommandCallsTheEngineOnceUnlessHalted :
    Obligations.StepCommandCallsTheEngineOnceUnlessHalted := by
  refine fun s hr halone => ⟨fun hrun => ?_, fun hhalted => exec_step_halted hr halone hhalted⟩
  rw [exec_step_served hr halone hrun, State.begin, record_inProgress, halone]
  rfl

/-- Settles O36: a served REQINT records its call and is in progress. -/
theorem reqintForwardsItsVector : Obligations.ReqintForwardsItsVector :=
  fun _ vector hr => exec_reqint_served hr vector

/-- Settles O37: the flag after a served SIGINT, which the next one sets again. -/
theorem sigintSetsTheOnePendingFlag : Obligations.SigintSetsTheOnePendingFlag := by
  refine fun s e hr he => ⟨exec_sigint_effect hr he, fun t ht => ?_⟩
  rw [exec_sigint_effect hr he] at ht
  cases ht
  exact ⟨_, exec_sigint_effect hr rfl, rfl⟩

/-- Settles O38: a served TERM writes the Run State and the response. -/
theorem termHalts : Obligations.TermHalts := fun _ hr => exec_term_served hr

end Sys2Proof.Machine

/-! ## The interrupt and exception bridge (spec/42_bridge.md) -/

namespace Sys2Proof.Machine

open State

/-- A call that takes one answer raises REENTRANT where that answer's agent issues a command (R91). -/
theorem State.callReentrantFree_one_unfaulted {s : State} (h : s.cfault = none) :
    s.callReentrantFree 1 = { s with
      cfault := if (s.answerAt 0).callsBack = true then some .reentrant else none
      answers := s.answers.drop 1
      drawn := s.drawn + (1 - s.answers.length) } := by
  simp [callReentrantFree_unfaulted h]

/-! ### The diagnostic fetch (R142) -/

theorem linearAddress_lt (cs ip : Half) : linearAddress cs ip < 2 ^ 21 := by
  have hcs := cs.isLt
  have hip := ip.isLt
  unfold linearAddress
  omega

/-- With the gate clear, a linear address at or above `2^20` wraps to the low 20 bits; no other changes. -/
theorem State.diagAddress_eq (s : State) (cs ip : Half) :
    s.diagAddress cs ip =
      if s.a20 = false ∧ 2 ^ 20 ≤ linearAddress cs ip then linearAddress cs ip - 2 ^ 20
      else linearAddress cs ip := by
  have hlt := linearAddress_lt cs ip
  rw [diagAddress]
  cases s.a20 with
  | false =>
    rw [toNat_maskA20_clear hlt]
    by_cases hwrap : 2 ^ 20 ≤ linearAddress cs ip
    · rw [if_pos ⟨rfl, hwrap⟩]
      omega
    · rw [if_neg fun h => hwrap h.2]
      omega
  | true =>
    rw [maskA20_set, if_neg (by simp), BitVec.toNat_ofNat]
    omega

/-- The diagnostic bytes are those of ten addresses that lie in the arena. -/
theorem State.diagBytes_eq (s : State) (cs ip : Half) :
    s.arena.readBytes (s.diagAddress cs ip) (s.diagLength cs ip) =
      ((List.range 10).filter fun k => s.diagAddress cs ip + k < s.params.maxAddress).map fun k =>
        s.arena.read (s.diagAddress cs ip + k) := by
  rw [filter_range_below]
  rfl

/-! ### The obligations -/

/-- Settles O40: a served REPEXC, with its diagnostic address and bytes in plain arithmetic. -/
theorem repexcReportsAndHalts : Obligations.RepexcReportsAndHalts := by
  intro s n kind cs ip hr hkind
  rw [exec_repexc_served hr cs ip hkind, callReentrantFree_one_unfaulted (s := s.record _) hr.2,
    diagBytes_eq, diagAddress_eq]
  rfl

/-- Settles O39: a served INTACK, with what its one call leaves written out. -/
theorem intackAnswersThePicVector : Obligations.IntackAnswersThePicVector := by
  intro s hr
  rw [exec_intack_served hr, callReentrantFree_one_unfaulted (s := s.record _) hr.2]
  rfl

end Sys2Proof.Machine

/-! ## The hypercall trap registry (spec/43_hypercall.md) -/

namespace Sys2Proof.Machine

open State

/-! ### The entry of an identifier (R26) -/

@[simp] theorem State.trap_setTrap_same (s : State) (id : Byte) (h : Handle) :
    (s.setTrap id h).trap id = some h := tableLookup_insert_same id.toNat h s.traps

theorem State.trap_setTrap_ne {id id' : Byte} (hne : id' ≠ id) (s : State) (h : Handle) :
    (s.setTrap id h).trap id' = s.trap id' :=
  tableLookup_insert_ne (fun heq => hne (BitVec.eq_of_toNat_eq heq)) h s.traps

theorem State.trap_congr {s t : State} (h : t.traps = s.traps) (id : Byte) :
    t.trap id = s.trap id := by
  rw [trap, trap, h]

/-- What a DISPBOP of the identifier, and a further REGBOP, find after a REGBOP of a known handle. -/
theorem exec_regbop_registers {s t : State} {id : Byte} {h : Handle} (hr : s.Ready)
    (hknown : h ∈ s.params.handlers) (hexec : exec (.regbop id h) s = .next t) :
    t.Ready ∧ t.params = s.params ∧ t.history = s.history ∧ t.trap id = some h := by
  rw [exec_regbop_served hr id hknown] at hexec
  cases hexec
  exact ⟨hr, rfl, rfl, trap_setTrap_same s id h⟩

/-! ### What changes the trap table from INIT on (R155) -/

/-- No call of CLEANUP registers the debugger break. -/
theorem State.runCleanup_traps {calls : List Call} (hown : calls.all Call.isCleanup = true) (s : State) :
    (s.runCleanup calls).traps = s.traps := by
  have hcall : ∀ (u : State) (c : Call) (cs : List Call),
      u.traps = s.traps ∧ (c :: cs).all Call.isCleanup = true →
      (u.makeCall c).traps = s.traps ∧ cs.all Call.isCleanup = true := by
    rintro u c cs ⟨hsame, hall⟩
    obtain ⟨hc, hcs⟩ : c.isCleanup = true ∧ cs.all Call.isCleanup = true := by simpa using hall
    have hne : c ≠ .enableInterrupts := by rintro rfl; cases hc
    exact ⟨(makeCall_traps u hne).trans hsame, hcs⟩
  exact runCalls_induction (Q := fun t => t.traps = s.traps)
    (fun u cs => u.traps = s.traps ∧ cs.all Call.isCleanup = true)
    hcall (fun u c cs h => (hcall u c cs h).1) (fun u h => (finishCleanup_traps u).trans h.1)
    ⟨rfl, hown⟩

/-- Of the commands but INIT, only REGBOP writes the trap table. -/
theorem Effect.traps {i : Instr} {s t : State} (h : Effect i s t) (hlife : s.life ≠ .uninit) :
    t.traps = s.traps ∨
    ∃ id handler, i = .regbop id handler ∧ t.traps = (s.setTrap id handler).traps := by
  cases i with
  | regbop id handler => obtain ⟨-, rfl⟩ := h; exact .inr ⟨id, handler, rfl, rfl⟩
  | init => exact absurd h.1 hlife
  | cleanup =>
    obtain ⟨-, ⟨-, rfl⟩ | ⟨huninit, -⟩⟩ := h
    · exact .inl (runCleanup_traps rfl s)
    · exact absurd huninit hlife
  | mread => left; obtain ⟨-, rfl⟩ | ⟨-, -, rfl⟩ := h <;> simp
  | mwrite => left; obtain ⟨-, rfl⟩ | ⟨-, -, rfl⟩ := h <;> simp
  | intack => left; obtain ⟨_, rfl⟩ := h; simp
  | repexc => left; obtain ⟨_, rfl⟩ := h; simp
  | dispbop => left; obtain rfl | ⟨_, rfl⟩ := h <;> rfl
  | step => left; obtain ⟨-, rfl | rfl⟩ := h <;> rfl
  | sigint => left; obtain ⟨_, rfl, rfl | rfl⟩ := h <;> rfl
  | seta20 | piord | piowr | execat | reqint | term | rdstat => left; cases h; rfl

theorem exec_traps {i : Instr} {s t : State} (h : exec i s = .next t) (hlife : s.life ≠ .uninit) :
    t.traps = s.traps ∨
    ∃ id handler, i = .regbop id handler ∧ t.traps = (s.setTrap id handler).traps := by
  rcases exec_cases h with ⟨-, -, rfl⟩ | ⟨-, -, _, rfl⟩ | ⟨-, -, heff⟩
  · exact .inl rfl
  · exact .inl rfl
  · exact heff.traps hlife

/-- The invariant rules out the one return that would write the table, that of an INIT. -/
theorem agentReturns_traps {s : State} (hinv : s.Inv) (hlife : s.life ≠ .uninit) :
    s.agentReturns.traps = s.traps := by
  rcases agentReturns_cases s with ⟨-, heq⟩ | ⟨act, outer, hin, heq⟩
  · rw [heq]
  · rw [heq]
    cases act with
    | init left => exact absurd (hinv.initAt hin).2.uninit hlife
    | cleanup left => exact runCleanup_traps (hinv.cleanupAt hin).own { s with inProgress := outer }
    | sigint | step | execat | reqint | handler | portRead | portWrite => rfl

@[simp] theorem engineMoves_traps (s : State) (e : Engine) : (s.engineMoves e).traps = s.traps := by
  unfold engineMoves; split <;> rfl

@[simp] theorem hostLoad_traps (s : State) (image : List Host.Cell) :
    (s.hostLoad image).traps = s.traps := by
  unfold hostLoad; split <;> rfl

/-- A step that writes the table serves a REGBOP. -/
theorem step_traps {s t : State} (hinv : s.Inv) (hlife : s.life ≠ .uninit) (h : step s = .next t) :
    t.traps = s.traps ∨ ∃ r rest id handler, s.inputs = .command r :: rest ∧
      decode r = .ok (.regbop id handler) ∧ t.traps = (s.setTrap id handler).traps := by
  rcases step_cases h with ⟨-, rfl⟩ | ⟨r, rest, i, hin, hdecode, hexec⟩ | ⟨_, _, _, -, -, rfl⟩ |
    ⟨rest, -, rfl⟩ | ⟨_, _, -, rfl⟩ | ⟨_, _, -, rfl⟩
  case inr.inl =>
    obtain hsame | ⟨id, handler, rfl, hset⟩ := exec_traps hexec hlife
    · exact .inl hsame
    · exact .inr ⟨r, rest, id, handler, hin, hdecode, hset⟩
  case inr.inr.inr.inl => exact .inl (agentReturns_traps (hinv.withInputs rest) hlife)
  all_goals exact .inl (by simp)

/-! ### The obligations -/

/-- Settles O41: a served REGBOP, and the entries of the table it leaves. -/
theorem regbopRegistersTheHandler : Obligations.RegbopRegistersTheHandler :=
  fun s id h hr hknown =>
    ⟨(s.setTrap id h).traps, exec_regbop_served hr id hknown, trap_setTrap_same s id h,
      fun _ hne => trap_setTrap_ne hne s h⟩

/-- Settles O45: both registrations are served, and the entry DISPBOP finds is the second one's. -/
theorem lastRegistrationWins : Obligations.LastRegistrationWins := by
  intro s t u id name name' ctx hr hknown hknown' hfirst hsecond
  obtain ⟨hready, hparams, hhistory, -⟩ := exec_regbop_registers hr hknown hfirst
  rw [← hparams] at hknown'
  obtain ⟨hready', -, hhistory', hentry⟩ := exec_regbop_registers hready hknown' hsecond
  exact ⟨_, exec_dispbop_host hready' ctx hentry, by simp [hhistory', hhistory]⟩

/-- Settles O52: a step that writes the table sets one entry, that of the REGBOP it serves. -/
theorem trapTableOnlyGrows : Obligations.TrapTableOnlyGrows := by
  intro s t id hinv hlife h
  obtain hsame | ⟨r, rest, id', handler, hin, hdecode, hset⟩ := step_traps hinv hlife h
  · exact .inl (trap_congr hsame id)
  · have htrap : t.trap id = (s.setTrap id' handler).trap id := trap_congr hset id
    by_cases hid : id = id'
    · subst hid
      exact .inr ⟨r, rest, handler, hin, hdecode, htrap.trans (trap_setTrap_same s id handler)⟩
    · exact .inl (htrap.trans (trap_setTrap_ne hid s handler))

/-- Settles O42: a served DISPBOP of a host handler records its call and is in progress. -/
theorem dispbopInvokesTheHandlerOnce : Obligations.DispbopInvokesTheHandlerOnce :=
  fun _ _ _ ctx hr hentry => exec_dispbop_host hr ctx hentry

/-- Settles O43: a served DISPBOP of the built-in handler records its event and completes. -/
theorem debugBreakOnlyRecordsItsEvent : Obligations.DebugBreakOnlyRecordsItsEvent :=
  fun _ _ ctx hr hentry => exec_dispbop_debugBreak hr ctx hentry

/-- Settles O46: a served PIORD and a served PIOWR, neither of which looks at its operands. -/
theorem portCommandsForwardToTheRouter : Obligations.PortCommandsForwardToTheRouter :=
  fun _ port size payload hr =>
    ⟨exec_piord_served hr port size, exec_piowr_served hr port size payload⟩

end Sys2Proof.Machine

/-! ## Exceptions (spec/60_exceptions.md) -/

namespace Sys2Proof.Machine

open State

/-! ### A failed INIT (R164) -/

/-- INIT passes both of its checks, and the allocation answers 0. -/
theorem exec_init_fails {s : State} (hlife : s.life = .uninit) (hc : s.cfault = none)
    (halone : s.inProgress = []) (hfail : (s.answerAt 0).bit = false) (x y : Word) :
    exec (.init x y) s = .next ((s.consume 1).respond { ok := some false }) := by
  simp only [exec, execInit]
  rw [whenMet_holds (decide_eq_true hlife), whenMet_holds (decide_eq_true halone), whenMet_nil hc,
    if_neg (by simp [hfail])]

/-- INIT's calls end without an answer or with OK = 1. -/
theorem startMachine_ok_ne_false (s : State) (x y : Word) :
    (s.startMachine x y).response.ok ≠ some false := by
  obtain hnone | hdone := runCalls_response finishInit_response (initCalls x y)
    ((s.consume 1).setArena [])
  · rw [startMachine, runInit, hnone]; simp
  · rw [startMachine, runInit, hdone]; simp

/-- An INIT that answers OK = 0 was served, and its allocation failed. -/
theorem exec_init_not_ok {s t : State} {x y : Word} (h : exec (.init x y) s = .next t)
    (hok : t.response.ok = some false) :
    s.life = .uninit ∧ t = (s.consume 1).respond { ok := some false } := by
  rcases exec_cases h with ⟨-, -, rfl⟩ | ⟨-, -, r, rfl⟩ | ⟨-, -, hlife, -, rfl | ht⟩
  · simp at hok
  · simp at hok
  · exact absurd hok (startMachine_ok_ne_false s x y)
  · exact ⟨hlife, ht⟩

/-- Settles O29: a served INIT whose allocation answers 0; and only INIT answers OK at all, with 0 only
there. -/
theorem failedInitChangesNothing : Obligations.FailedInitChangesNothing := by
  refine ⟨fun s x y hlife hc halone hfail => exec_init_fails hlife hc halone hfail x y,
    fun i s t h hok => ?_⟩
  obtain ⟨-, -, hinit, -⟩ := responsesHoldOnlyListedFields i s t h
  have hop : i.opcode = .init := hinit (by rw [hok]; exact nofun)
  cases i with
  | init x y =>
    obtain ⟨hlife, rfl⟩ := exec_init_not_ok h hok
    exact ⟨x, y, rfl, hlife, hlife⟩
  | _ => cases hop

end Sys2Proof.Machine

/-! ## The host's image load (spec/70_reset_and_hazards.md R193) -/

namespace Sys2Proof.Machine

namespace State

theorem hostLoad_open {s : State} (h : s.life = .ready ∧ s.stepIssued = false)
    (image : List Host.Cell) : s.hostLoad image = s.setArena (s.writeImage image) := if_pos h

theorem hostLoad_closed {s : State} (h : ¬ (s.life = .ready ∧ s.stepIssued = false))
    (image : List Host.Cell) : s.hostLoad image = s := if_neg h

/-- The first entry is written, and the others into the arena it leaves. -/
theorem writeImage_cons (s : State) (c : Host.Cell) (image : List Host.Cell) :
    s.writeImage (c :: image) = (s.setArena (s.writeImage [c])).writeImage image := rfl

theorem writeImage_singleton_read {s : State} (c : Host.Cell) {x : Nat}
    (hx : x < s.params.maxAddress) :
    (s.writeImage [c]).read x = if c.1 = x then c.2 else s.arena.read x := by
  simp only [writeImage, List.foldl_cons, List.foldl_nil]
  by_cases hc : c.1 = x
  · rw [if_pos (hc ▸ hx), if_pos hc, ← hc, Memory.read_write_same]
  · rw [if_neg hc]
    split
    · exact Memory.read_write_ne (Ne.symm hc) s.arena c.2
    · rfl

/-- Below `MAX_ADDRESS`, an address reads its last entry in the image, or as before if it has none. -/
theorem writeImage_read_inside {s : State} (image : List Host.Cell) {x : Nat}
    (hx : x < s.params.maxAddress) :
    (s.writeImage image).read x =
      (image.reverse.find? (fun c => c.1 == x)).elim (s.arena.read x) Prod.snd := by
  induction image generalizing s with
  | nil => rfl
  | cons c image ih =>
    rw [writeImage_cons, ih (s := s.setArena (s.writeImage [c])) hx, List.reverse_cons,
      List.find?_append]
    cases image.reverse.find? (fun c => c.1 == x) with
    | some later => rfl
    | none => by_cases hc : c.1 = x <;> simp [writeImage_singleton_read c hx, hc]

end State

open State

theorem step_hostLoad {s : State} {image : List Host.Cell} {rest : List Input}
    (h : s.inputs = .hostLoad image :: rest) :
    step s = .next ({ s with inputs := rest }.hostLoad image) := by
  simp only [step, h]

/-- Settles O14: the step is the image load, which is open or closed; the new arena is read on both sides
of `MAX_ADDRESS`. -/
theorem imageLoadSetsBytesBeforeTheFirstStep : Obligations.ImageLoadSetsBytesBeforeTheFirstStep := by
  intro s image rest hin
  rw [step_hostLoad hin]
  refine ⟨fun hopen => ⟨s.writeImage image, ?_, fun x => ?_⟩, fun hclosed => ?_⟩
  · rw [hostLoad_open (s := { s with inputs := rest }) hopen]
    rfl
  · split
    · rw [writeImage_read_inside image ‹_›]
      cases image.reverse.find? (fun c => c.1 == x) <;> rfl
    · exact writeImage_read_outside s image (by omega)
  · rw [hostLoad_closed (s := { s with inputs := rest }) hclosed]

end Sys2Proof.Machine

/-! ## A step with no input -/

namespace Sys2Proof.Machine

/-- The equation of `step` for an empty input list; its equations for each kind of input stand above. -/
theorem step_noInput {s : State} (h : s.inputs = []) : step s = .next s := by
  simp only [step, h]

/-- Settles O10: it is the model's equation for a step that finds no input. -/
theorem stepWithoutInputWaits : Obligations.StepWithoutInputWaits :=
  fun _ => step_noInput

end Sys2Proof.Machine
